-- ==== Sys2Proof/Word.lean ====
section
/-! DEFINITION. The word types of FRAMER16 (spec/00_scope.md R9: every value is an unsigned integer
of the width its register, field or operand states). -/

namespace Sys2Proof

/-- A byte: 8 bits (R9). -/
abbrev Byte := BitVec 8

/-- A command word, or the data word of a response: 32 bits (R2, R100, R111), the widths CMD_WIDTH and
RESP_DATA_WIDTH of Sys2Proof/Config.lean (R6). -/
abbrev Word := BitVec 32

end Sys2Proof
end

