-- ==== Sys2Proof/Config.lean ====
section
/-! DEFINITION. The build parameters of spec/00_scope.md R6, and the free values the spec leaves
open (spec/10_state.md R44, spec/70_reset_and_hazards.md R402). -/

namespace Sys2Proof

/-- The two address spaces of the block (spec/20_memory.md R70). -/
inductive Space where
  /-- DIN, the input data memory. -/
  | din
  /-- FOUT, the frame output memory. -/
  | fout
deriving DecidableEq, Repr

namespace Config

/-- MAX_PKT_SIZE (R6). -/
abbrev maxPktSize : Nat := 128

/-- MAX_ADDR_LEN (R6). -/
abbrev maxAddrLen : Nat := 20

/-- MPDU_OVERHEAD: the FCF, the sequence number and the FCS (R6). -/
abbrev mpduOverhead : Nat := 5

/-- PREAMBLE_LEN (R6). -/
abbrev preambleLen : Nat := 4

/-- PREAMBLE_BYTE (R6). -/
abbrev preambleByte : Byte := 0x00#8

/-- SFD_DEFAULT, the reset value of register SFD (R6). -/
abbrev sfdDefault : Byte := 0xA7#8

/-- TAIL_LEN (R6). -/
abbrev tailLen : Nat := 5

/-- PAD_BYTE (R6). -/
abbrev padByte : Byte := 0x00#8

/-- BLOCK_SAMPLES: samples in one transport block (R6). -/
abbrev blockSamples : Nat := 128

/-- BITS_PER_BYTE (R6). -/
abbrev bitsPerByte : Nat := 8

/-- CRC_POLY, without its x^16 term (R6). -/
abbrev crcPoly : BitVec 16 := 0x1021#16

/-- CRC_POLY_REFL, CRC_POLY with its 16 bits reversed (R6, spec/40_crc.md R141). -/
abbrev crcPolyRefl : BitVec 16 := 0x8408#16

/-- CRC_SEED_DEFAULT (R6). -/
abbrev crcSeedDefault : BitVec 16 := 0x0000#16

/-- DIN_SIZE and FOUT_SIZE in bytes (R6). -/
def memSize : Space → Nat
  | .din => 256
  | .fout => 256

/-- CMD_WIDTH: bits of a command word (R6). -/
abbrev cmdWidth : Nat := 32

/-- RESP_DATA_WIDTH: bits of a response's data word (R6). -/
abbrev respDataWidth : Nat := 32

/-- The values of BLOCK_SAMPLES that a build of this block may have (R8). -/
def legalBlockSamples (n : Nat) : Bool :=
  n % 8 == 0 && decide (8 ≤ n) && decide (n ≤ 936)

/-- The unspecified content of one byte of DIN or FOUT after a reset: a FREE VALUE (R44, R402,
spec/93_implementation_defined.md I1). `draw` counts the resets taken before, so that every reset
draws the 512 bytes anew; the byte is the same on every read until it is written. It has no body:
nothing can be proved of its value (notes/assumptions/3.md). -/
opaque resetByte (space : Space) (draw : Nat) (addr : Nat) : Byte

end Config

end Sys2Proof
end

