-- ==== Sys2Proof/Syntax.lean ====
section
/-! DEFINITION. The commands of FRAMER16, one constructor per row of spec/opcode_table.json
(spec/30_encoding.md R108), and the lines of its assembler (R112, R113). -/

namespace Sys2Proof

/-- A decoded command. An operand is a bit vector of exactly its field's width (R101, R104 to R107),
so a command with an operand that no command word holds cannot be written down. -/
inductive Instr where
  /-- NOP (spec/44_control.md R250). -/
  | nop
  /-- CFG_SPB (R251): `imm8` is the samples-per-bit value. -/
  | cfgSpb (imm8 : BitVec 8)
  /-- CFG_SFD (R252): `imm8` is the start-of-frame delimiter. -/
  | cfgSfd (imm8 : BitVec 8)
  /-- CLR_ERR (R253). -/
  | clrErr
  /-- CRC_INIT (spec/40_crc.md R147): `imm16` is the seed. -/
  | crcInit (imm16 : BitVec 16)
  /-- CRC_BYTE (R148): `imm8` is the input byte. -/
  | crcByte (imm8 : BitVec 8)
  /-- CRC_BYTE_S (R149): `imm8` is the input byte. -/
  | crcByteS (imm8 : BitVec 8)
  /-- CRCT_RD (R150): `imm8` is the table index. -/
  | crctRd (imm8 : BitVec 8)
  /-- FCF_ENC (spec/41_fcf.md R174): the seven sub-field operands of format F (R106). -/
  | fcfEnc (ft : BitVec 4) (se fp ar pc : BitVec 2) (dam sam : BitVec 3)
  /-- FCF_LOAD (R175): `imm16` is the raw FCF. -/
  | fcfLoad (imm16 : BitVec 16)
  /-- FCF_DEC (R176). -/
  | fcfDec
  /-- BUILD (spec/42_frame.md R206): payload length `w`, address-info length `v`, `pad`, sequence
  number `seq` (format B, R107). -/
  | build (w : BitVec 8) (v : BitVec 5) (pad : BitVec 1) (seq : BitVec 9)
  /-- PAD_CALC (spec/43_padding.md R233): `imm16` is the length in bytes. -/
  | padCalc (imm16 : BitVec 16)
  /-- DIN_WR (spec/44_control.md R254): address and data byte (format A). -/
  | dinWr (addr8 data8 : BitVec 8)
  /-- DIN_RD (R255): `imm8` is the address. -/
  | dinRd (imm8 : BitVec 8)
  /-- FOUT_RD (R256): `imm8` is the address. -/
  | foutRd (imm8 : BitVec 8)
  /-- REG_RD (R257): `imm8` is the regno. -/
  | regRd (imm8 : BitVec 8)
deriving DecidableEq, Repr

/-- The registers by name, as the assembler takes them (spec/10_state.md R33, R112). -/
inductive RegName where
  | status | crc | fcf | fdec | spb | sfd | flen | padn | bmod | caps
deriving DecidableEq, Repr

/-- The named operands of an FCF_ENC line. An omitted one is 0 (R112). -/
structure FcfEncOperands where
  ft : Nat := 0
  se : Nat := 0
  fp : Nat := 0
  ar : Nat := 0
  pc : Nat := 0
  dam : Nat := 0
  sam : Nat := 0
deriving DecidableEq, Repr

/-- The named operands of a BUILD line. An omitted one is 0 (R112). -/
structure BuildOperands where
  seq : Nat := 0
  v : Nat := 0
  w : Nat := 0
  pad : Nat := 0
deriving DecidableEq, Repr

/-- A line of the assembler (R112) or one of its pseudo-commands (R113). Operands are unsigned
integers of any size: `AsmLine.wf` says which of them fit their fields. -/
inductive AsmLine where
  | nop
  | cfgSpb (spb8 : Nat)
  | cfgSfd (sfd8 : Nat)
  | clrErr
  | crcInit (seed16 : Nat)
  | crcByte (b8 : Nat)
  | crcByteS (b8 : Nat)
  | crctRd (idx8 : Nat)
  | fcfEnc (f : FcfEncOperands)
  | fcfLoad (fcf16 : Nat)
  | fcfDec
  | build (b : BuildOperands)
  | padCalc (len16 : Nat)
  | dinWr (addr8 data8 : Nat)
  | dinRd (addr8 : Nat)
  | foutRd (addr8 : Nat)
  /-- REG_RD with a number. -/
  | regRd (regno8 : Nat)
  /-- REG_RD with a register name. -/
  | regRdName (r : RegName)
  /-- Pseudo-command CRC_BYTES. -/
  | crcBytes (bs : List Nat)
  /-- Pseudo-command CRC_STR: the characters of the text. -/
  | crcStr (text : List Char)
  /-- Pseudo-command CRC16. -/
  | crc16 (seed16 : Nat) (bs : List Nat)
  /-- Pseudo-command DIN_LOAD. -/
  | dinLoad (a : Nat) (bs : List Nat)
  /-- Pseudo-command RD. -/
  | rd (r : RegName)
deriving DecidableEq, Repr

end Sys2Proof
end

