-- ==== Sys2Proof/WellFormed.lean ====
section
/-! DEFINITION. Well-formedness: an operand fits its bit field (spec/30_encoding.md R101, R112), and
DIN_LOAD stays inside DIN (R113). A value that fits its field but lies outside the legal range is
well formed: the hardware reports it (R112). -/

namespace Sys2Proof

/-- The value fits an unsigned field of `w` bits. -/
def fits (w n : Nat) : Bool := decide (n < 2 ^ w)

/-- Every FCF_ENC operand fits its field of format F (R106). -/
def FcfEncOperands.wf (f : FcfEncOperands) : Bool :=
  fits 4 f.ft && fits 2 f.se && fits 2 f.fp && fits 2 f.ar && fits 2 f.pc && fits 3 f.dam &&
    fits 3 f.sam

/-- Every BUILD operand fits its field of format B (R107). -/
def BuildOperands.wf (b : BuildOperands) : Bool :=
  fits 9 b.seq && fits 5 b.v && fits 8 b.w && fits 1 b.pad

/-- The assembler accepts the line's operands (R112, R113). A character of CRC_STR is one of the 128
ASCII codes. -/
def AsmLine.wf : AsmLine → Bool
  | .nop => true
  | .cfgSpb n => fits 8 n
  | .cfgSfd n => fits 8 n
  | .clrErr => true
  | .crcInit n => fits 16 n
  | .crcByte n => fits 8 n
  | .crcByteS n => fits 8 n
  | .crctRd n => fits 8 n
  | .fcfEnc f => f.wf
  | .fcfLoad n => fits 16 n
  | .fcfDec => true
  | .build b => b.wf
  | .padCalc n => fits 16 n
  | .dinWr a d => fits 8 a && fits 8 d
  | .dinRd n => fits 8 n
  | .foutRd n => fits 8 n
  | .regRd n => fits 8 n
  | .regRdName _ => true
  | .crcBytes bs => bs.all (fits 8)
  | .crcStr text => text.all fun c => fits 7 c.toNat
  | .crc16 seed bs => fits 16 seed && bs.all (fits 8)
  | .dinLoad a bs => fits 8 a && bs.all (fits 8) && decide (a + bs.length ≤ 256)
  | .rd _ => true

/-- A command as a line of the assembler. -/
def Instr.toAsm : Instr → AsmLine
  | .nop => .nop
  | .cfgSpb imm8 => .cfgSpb imm8.toNat
  | .cfgSfd imm8 => .cfgSfd imm8.toNat
  | .clrErr => .clrErr
  | .crcInit imm16 => .crcInit imm16.toNat
  | .crcByte imm8 => .crcByte imm8.toNat
  | .crcByteS imm8 => .crcByteS imm8.toNat
  | .crctRd imm8 => .crctRd imm8.toNat
  | .fcfEnc ft se fp ar pc dam sam =>
    .fcfEnc { ft := ft.toNat, se := se.toNat, fp := fp.toNat, ar := ar.toNat, pc := pc.toNat,
              dam := dam.toNat, sam := sam.toNat }
  | .fcfLoad imm16 => .fcfLoad imm16.toNat
  | .fcfDec => .fcfDec
  | .build w v pad seq =>
    .build { seq := seq.toNat, v := v.toNat, w := w.toNat, pad := pad.toNat }
  | .padCalc imm16 => .padCalc imm16.toNat
  | .dinWr addr8 data8 => .dinWr addr8.toNat data8.toNat
  | .dinRd imm8 => .dinRd imm8.toNat
  | .foutRd imm8 => .foutRd imm8.toNat
  | .regRd imm8 => .regRd imm8.toNat

/-- Well-formedness of a command: its operands fit their fields. Each operand is a bit vector of its
field's width, so every command is well formed (`Sys2Proof.Laws.WellFormed`, one lemma per
constructor). -/
def Instr.wf (i : Instr) : Bool := i.toAsm.wf

end Sys2Proof
end

