-- ==== Sys2Proof/Decode.lean ====
section
/-! DEFINITION. Decoding and encoding of command words (spec/30_encoding.md R100 to R110), and the
opcode map of R108 as data. A command is one whole 32-bit word on the command port; the port has no
byte order (R74, spec/91_not_in_source.md N20). -/

namespace Sys2Proof

/-- The six operand formats (R101). -/
inductive Format where
  | n | i8 | i16 | a | f | b
deriving DecidableEq, Repr

/-- The assigned opcodes (R108). -/
inductive Opcode where
  | nop | cfgSpb | cfgSfd | clrErr | crcInit | crcByte | crcByteS | crctRd | fcfEnc | fcfLoad
  | fcfDec | build | padCalc | dinWr | dinRd | foutRd | regRd
deriving DecidableEq, Repr

/-- Why a word is no command (R102). Neither stops the machine: each is a status code. -/
inductive DecodeError where
  /-- The opcode is unassigned: ERR_ILLEGAL (R109). -/
  | illegal
  /-- The opcode is assigned and a reserved operand bit is set: ERR_RESERVED (R103). -/
  | reserved
deriving DecidableEq, Repr

/-- The number of an opcode, bits 31:24 of the word (R108). -/
def Opcode.code : Opcode → BitVec 8
  | .nop => 0x00#8
  | .cfgSpb => 0x01#8
  | .cfgSfd => 0x02#8
  | .clrErr => 0x03#8
  | .crcInit => 0x10#8
  | .crcByte => 0x11#8
  | .crcByteS => 0x12#8
  | .crctRd => 0x13#8
  | .fcfEnc => 0x20#8
  | .fcfLoad => 0x21#8
  | .fcfDec => 0x22#8
  | .build => 0x30#8
  | .padCalc => 0x38#8
  | .dinWr => 0x40#8
  | .dinRd => 0x41#8
  | .foutRd => 0x42#8
  | .regRd => 0x50#8

/-- The format of each opcode (R108). -/
def Opcode.format : Opcode → Format
  | .nop | .clrErr | .fcfDec => .n
  | .cfgSpb | .cfgSfd | .crcByte | .crcByteS | .crctRd | .dinRd | .foutRd | .regRd => .i8
  | .crcInit | .fcfLoad | .padCalc => .i16
  | .dinWr => .a
  | .fcfEnc => .f
  | .build => .b

/-- The reserved operand bits of a format (R101). -/
def reservedMask : Format → BitVec 32
  | .n => 0x00FFFFFF#32
  | .i8 => 0x00FFFF00#32
  | .i16 => 0x00FF0000#32
  | .a => 0x00FF0000#32
  | .f => 0x00FC0000#32
  | .b => 0x00800000#32

/-- The assigned opcodes in the order of R108. -/
def allOpcodes : List Opcode :=
  [.nop, .cfgSpb, .cfgSfd, .clrErr, .crcInit, .crcByte, .crcByteS, .crctRd, .fcfEnc, .fcfLoad,
   .fcfDec, .build, .padCalc, .dinWr, .dinRd, .foutRd, .regRd]

/-- The opcode with a given number, or none if the number is unassigned (R108, R109). -/
def opcodeOf (op : BitVec 8) : Option Opcode :=
  allOpcodes.find? fun o => o.code == op

/-- OPC, bits 31:24 of the word (R100). -/
def opcField (cmd : BitVec 32) : BitVec 8 := cmd.extractLsb' 24 8

/-- imm8 = cmd[7:0] (R105). -/
def imm8Field (cmd : BitVec 32) : BitVec 8 := cmd.extractLsb' 0 8

/-- imm16 = cmd[15:0] (R105). -/
def imm16Field (cmd : BitVec 32) : BitVec 16 := cmd.extractLsb' 0 16

/-- The command that an opcode makes of a word's operand fields (R105 to R107). -/
def Opcode.operands (op : Opcode) (cmd : BitVec 32) : Instr :=
  match op with
  | .nop => .nop
  | .cfgSpb => .cfgSpb (imm8Field cmd)
  | .cfgSfd => .cfgSfd (imm8Field cmd)
  | .clrErr => .clrErr
  | .crcInit => .crcInit (imm16Field cmd)
  | .crcByte => .crcByte (imm8Field cmd)
  | .crcByteS => .crcByteS (imm8Field cmd)
  | .crctRd => .crctRd (imm8Field cmd)
  | .fcfEnc =>
    .fcfEnc (cmd.extractLsb' 0 4) (cmd.extractLsb' 4 2) (cmd.extractLsb' 6 2)
      (cmd.extractLsb' 8 2) (cmd.extractLsb' 10 2) (cmd.extractLsb' 12 3) (cmd.extractLsb' 15 3)
  | .fcfLoad => .fcfLoad (imm16Field cmd)
  | .fcfDec => .fcfDec
  | .build =>
    .build (cmd.extractLsb' 0 8) (cmd.extractLsb' 8 5) (cmd.extractLsb' 13 1)
      (cmd.extractLsb' 14 9)
  | .padCalc => .padCalc (imm16Field cmd)
  | .dinWr => .dinWr (cmd.extractLsb' 8 8) (cmd.extractLsb' 0 8)
  | .dinRd => .dinRd (imm8Field cmd)
  | .foutRd => .foutRd (imm8Field cmd)
  | .regRd => .regRd (imm8Field cmd)

/-- Decoding (R102), total on every word: the opcode check, then the reserved-bit check, then the
operands. -/
def decode (cmd : BitVec 32) : Except DecodeError Instr :=
  match opcodeOf (opcField cmd) with
  | none => .error .illegal
  | some op =>
    if cmd &&& reservedMask op.format = 0#32 then .ok (op.operands cmd) else .error .reserved

/-- The word of a command (R101 patterns, R108 opcodes), most significant field first. -/
def encode : Instr → BitVec 32
  | .nop => 0x00#8 ++ 0#24
  | .cfgSpb imm8 => 0x01#8 ++ 0#16 ++ imm8
  | .cfgSfd imm8 => 0x02#8 ++ 0#16 ++ imm8
  | .clrErr => 0x03#8 ++ 0#24
  | .crcInit imm16 => 0x10#8 ++ 0#8 ++ imm16
  | .crcByte imm8 => 0x11#8 ++ 0#16 ++ imm8
  | .crcByteS imm8 => 0x12#8 ++ 0#16 ++ imm8
  | .crctRd imm8 => 0x13#8 ++ 0#16 ++ imm8
  | .fcfEnc ft se fp ar pc dam sam => 0x20#8 ++ 0#6 ++ sam ++ dam ++ pc ++ ar ++ fp ++ se ++ ft
  | .fcfLoad imm16 => 0x21#8 ++ 0#8 ++ imm16
  | .fcfDec => 0x22#8 ++ 0#24
  | .build w v pad seq => 0x30#8 ++ 0#1 ++ seq ++ pad ++ v ++ w
  | .padCalc imm16 => 0x38#8 ++ 0#8 ++ imm16
  | .dinWr addr8 data8 => 0x40#8 ++ 0#8 ++ addr8 ++ data8
  | .dinRd imm8 => 0x41#8 ++ 0#16 ++ imm8
  | .foutRd imm8 => 0x42#8 ++ 0#16 ++ imm8
  | .regRd imm8 => 0x50#8 ++ 0#16 ++ imm8

/-- The opcode of a command. -/
def Instr.opcode : Instr → Opcode
  | .nop => .nop
  | .cfgSpb _ => .cfgSpb
  | .cfgSfd _ => .cfgSfd
  | .clrErr => .clrErr
  | .crcInit _ => .crcInit
  | .crcByte _ => .crcByte
  | .crcByteS _ => .crcByteS
  | .crctRd _ => .crctRd
  | .fcfEnc .. => .fcfEnc
  | .fcfLoad _ => .fcfLoad
  | .fcfDec => .fcfDec
  | .build .. => .build
  | .padCalc _ => .padCalc
  | .dinWr _ _ => .dinWr
  | .dinRd _ => .dinRd
  | .foutRd _ => .foutRd
  | .regRd _ => .regRd

/-- A row of the opcode map (R108): a word is this command when `word &&& mask = matchBits`. -/
structure OpcodeRow where
  opcode : Opcode
  mnemonic : String
  matchBits : BitVec 32
  mask : BitVec 32
deriving DecidableEq, Repr

/-- The opcode map, row by row as R108 writes it. -/
def opcodeTable : List OpcodeRow :=
  [⟨.nop, "NOP", 0x00000000#32, 0xFFFFFFFF#32⟩,
   ⟨.cfgSpb, "CFG_SPB", 0x01000000#32, 0xFFFFFF00#32⟩,
   ⟨.cfgSfd, "CFG_SFD", 0x02000000#32, 0xFFFFFF00#32⟩,
   ⟨.clrErr, "CLR_ERR", 0x03000000#32, 0xFFFFFFFF#32⟩,
   ⟨.crcInit, "CRC_INIT", 0x10000000#32, 0xFFFF0000#32⟩,
   ⟨.crcByte, "CRC_BYTE", 0x11000000#32, 0xFFFFFF00#32⟩,
   ⟨.crcByteS, "CRC_BYTE_S", 0x12000000#32, 0xFFFFFF00#32⟩,
   ⟨.crctRd, "CRCT_RD", 0x13000000#32, 0xFFFFFF00#32⟩,
   ⟨.fcfEnc, "FCF_ENC", 0x20000000#32, 0xFFFC0000#32⟩,
   ⟨.fcfLoad, "FCF_LOAD", 0x21000000#32, 0xFFFF0000#32⟩,
   ⟨.fcfDec, "FCF_DEC", 0x22000000#32, 0xFFFFFFFF#32⟩,
   ⟨.build, "BUILD", 0x30000000#32, 0xFF800000#32⟩,
   ⟨.padCalc, "PAD_CALC", 0x38000000#32, 0xFFFF0000#32⟩,
   ⟨.dinWr, "DIN_WR", 0x40000000#32, 0xFFFF0000#32⟩,
   ⟨.dinRd, "DIN_RD", 0x41000000#32, 0xFFFFFF00#32⟩,
   ⟨.foutRd, "FOUT_RD", 0x42000000#32, 0xFFFFFF00#32⟩,
   ⟨.regRd, "REG_RD", 0x50000000#32, 0xFFFFFF00#32⟩]

/-- The word of an instruction whose low `nbits` bits are those of `w`, every other bit 0. -/
def tableWord (nbits w : Nat) : BitVec 32 := BitVec.ofNat Config.cmdWidth (w % 2 ^ nbits)

/-- The command the decoder reads from a table word, or none where it refuses the word. -/
def decodeTableWord (nbits w : Nat) : Option Instr :=
  match decode (tableWord nbits w) with
  | .ok i => some i
  | .error _ => none

end Sys2Proof
end

