-- ==== Sys2Proof/Machine/State.lean ====
section
/-! DEFINITION. The state of FRAMER16 (spec/10_state.md R33 to R47), the state after reset
(spec/70_reset_and_hazards.md R401, R402), and the reasons a step can stop. -/

namespace Sys2Proof.Machine

/-- The status codes (spec/60_exceptions.md R301). -/
inductive StatusCode where
  | ok
  | errIllegal
  | errReserved
  | errRegno
  | errSeq
  | errAddrLen
  | errPayloadLen
  | errFcfOverflow
  | errConfig
deriving DecidableEq, Repr

/-- A response: an 8-bit status code and a 32-bit data word (spec/00_scope.md R2,
spec/30_encoding.md R111). -/
structure Response where
  code : Byte
  data : Word
deriving DecidableEq, Repr

/-- What reaches the block from outside: a command word on the command port (R100), the reset input
taken between commands, and reset asserted while a command executes (R400). -/
inductive Input where
  | command (cmd : Word)
  | reset
  | resetDuring (cmd : Word)
deriving DecidableEq, Repr

/-- A byte memory: the bytes written since the last reset, addresses strictly rising. An address
that is not listed has not been written since the last reset (notes/assumptions/2.md). -/
abbrev Memory := List Host.Cell

/-- The full architectural state (R47): exactly the tuple (STATUS, CRC, FCF, FDEC, SPB, SFD, FLEN, PADN,
DIN[0..255], FOUT[0..255]). `Tuple.command` (Sys2Proof/Machine/Port.lean) executes commands on it. -/
structure Tuple where
  status : BitVec 17
  crc : BitVec 16
  fcf : BitVec 16
  fdec : BitVec 18
  spb : BitVec 8
  sfd : BitVec 8
  flen : BitVec 8
  padn : BitVec 8
  din : Vector Byte 256
  fout : Vector Byte 256
deriving DecidableEq, Repr

/-- The tuple of R47 as the machine stores it: a memory lists the bytes written since reset, and a byte
it does not list is the draw of R44 (notes/assumptions/2.md). `State.tuple`
(Sys2Proof/Machine/Ops.lean) gives the Tuple it stands for. -/
structure Block where
  /-- Register STATUS, bits 16..0 (R33, R34). -/
  status : BitVec 17
  /-- Register CRC (R35). -/
  crc : BitVec 16
  /-- Register FCF (R36). -/
  fcf : BitVec 16
  /-- Register FDEC, bits 17..0 (R37). -/
  fdec : BitVec 18
  /-- Register SPB; 0 means not configured (R38). -/
  spb : BitVec 8
  /-- Register SFD (R38). -/
  sfd : BitVec 8
  /-- Register FLEN (R38). -/
  flen : BitVec 8
  /-- Register PADN (R38). -/
  padn : BitVec 8
  /-- The input data memory (R42, R43). -/
  din : Memory
  /-- The frame output memory (R42, R45). -/
  fout : Memory
deriving DecidableEq, Repr

/-- The machine as the host runs it: the block, and three fields of the MODEL's own that are no part
of the block's state (notes/assumptions/17.md): the draw of the free reset contents of DIN and FOUT,
the inputs from outside, and the responses sent (notes/assumptions/1.md, 3.md, 4.md). -/
structure State extends Block where
  /-- The model's own: how many resets were taken since power-on; it selects the free contents that
  unwritten bytes of DIN and FOUT read as. -/
  draws : Nat
  /-- The model's own: the inputs still to come from the host and the platform, next first. -/
  inputs : List Input
  /-- The model's own: the responses sent on the response port, oldest first. -/
  responses : List Response
deriving DecidableEq, Repr

/-- The machine right after power-on reset (R401, R402): no byte of DIN or FOUT is given a value,
nothing waits on the command port and no response was sent. -/
def State.reset : State :=
  { status := 0x00000#17
    crc := 0x0000#16
    fcf := 0x0000#16
    fdec := 0x00000#18
    spb := 0x00#8
    sfd := Config.sfdDefault
    flen := 0x00#8
    padn := 0x00#8
    din := []
    fout := []
    draws := 0
    inputs := []
    responses := [] }

/-- Why a step stops with a fault. No command of the spec does: every error is a response (R311). -/
inductive Fault where
  /-- Raised by `State.memRead` and `State.memWrite` for bytes outside the 256 bytes of a memory
  (R70). Every access of the command set stays inside (R71), so no step reaches it; safe. -/
  | addressOutsideSpace (space : Space)
deriving DecidableEq, Repr

/-- Why a step refuses. No step of this model does. -/
inductive Refusal where
  /-- Raised by an arm of `exec` that has no meaning yet; safe. No arm is left so. -/
  | notModelled (mnemonic : String)
deriving DecidableEq, Repr

end Sys2Proof.Machine
end

