-- ==== Sys2Proof/Machine/Flags.lean ====
section
/-! DEFINITION. The status codes and the fields of register STATUS (spec/10_state.md R34,
spec/60_exceptions.md R300, R301). -/

namespace Sys2Proof.Machine

/-- The 8-bit number of a status code (R301). -/
def StatusCode.bits : StatusCode → BitVec 8
  | .ok => 0x00#8
  | .errIllegal => 0x01#8
  | .errReserved => 0x02#8
  | .errRegno => 0x03#8
  | .errSeq => 0x10#8
  | .errAddrLen => 0x11#8
  | .errPayloadLen => 0x12#8
  | .errFcfOverflow => 0x13#8
  | .errConfig => 0x20#8

/-- The status code of a word that is no command (spec/30_encoding.md R102). -/
def codeOfDecodeError : DecodeError → StatusCode
  | .illegal => .errIllegal
  | .reserved => .errReserved

/-- STATUS.CODE, bits 7:0 (R34). -/
def statusCode (st : BitVec 17) : BitVec 8 := st.extractLsb' 0 8

/-- STATUS.FIELD, bits 11:8 (R34). -/
def statusField (st : BitVec 17) : BitVec 4 := st.extractLsb' 8 4

/-- STATUS.STICKY, bit 16 (R34). -/
def statusSticky (st : BitVec 17) : Bool := st.getLsbD 16

/-- STATUS from its fields; bits 15:12 are reserved and stay 0 (R34, spec/93 I5). -/
def packStatus (sticky : Bool) (field : BitVec 4) (code : BitVec 8) : BitVec 17 :=
  BitVec.ofBool sticky ++ 0#4 ++ field ++ code

/-- STATUS as a 32-bit read gives it: bits 15:12 and 31:17 read 0 (R33, R34). -/
def statusWord (st : BitVec 17) : BitVec 32 :=
  (packStatus (statusSticky st) (statusField st) (statusCode st)).setWidth 32

/-- The status update at the end of every command, with code `c` and field index `f` (R300). -/
def statusAfter (st : BitVec 17) (c : StatusCode) (f : BitVec 4) : BitVec 17 :=
  packStatus (statusSticky st || decide (c ≠ .ok)) (if c = .errFcfOverflow then f else 0#4) c.bits

/-- STATUS with STICKY cleared, as CLR_ERR does before its status update (spec/44_control.md R253). -/
def clearSticky (st : BitVec 17) : BitVec 17 :=
  packStatus false (statusField st) (statusCode st)

end Sys2Proof.Machine
end

