-- ==== Sys2Proof/Machine/Ops.lean ====
section
/-! DEFINITION. The named operations over the memories, the end of a command (completing and
raising, spec/60_exceptions.md R300 to R303) and reset (spec/70_reset_and_hazards.md R400 to R402). -/

namespace Sys2Proof.Machine

/-! ## Memory -/

/-- What a memory lists at an address: the byte last written there since reset, or none. This is the
one definition of what an unlisted address holds: no known value. -/
def Memory.get? (m : Memory) (a : Nat) : Option Byte :=
  match m with
  | [] => none
  | (b, v) :: rest => if a = b then some v else Memory.get? rest a

/-- Write one byte, keeping the addresses strictly rising. -/
def Memory.write (m : Memory) (a : Nat) (x : Byte) : Memory :=
  match m with
  | [] => [(a, x)]
  | (b, v) :: rest =>
    if a < b then (a, x) :: (b, v) :: rest
    else if a = b then (a, x) :: rest
    else (b, v) :: Memory.write rest a x

/-- Write a byte sequence at `a`, `a + 1`, and so on (spec/00_scope.md R11). -/
def Memory.writeBytes (m : Memory) (a : Nat) (xs : List Byte) : Memory :=
  match xs with
  | [] => m
  | x :: rest => Memory.writeBytes (Memory.write m a x) (a + 1) rest

/-- The addresses of the list rise strictly, all of them at least `lo`. -/
def Memory.risingFrom (lo : Nat) (m : Memory) : Bool :=
  match m with
  | [] => true
  | (b, _) :: rest => decide (lo ≤ b) && Memory.risingFrom (b + 1) rest

/-- Every listed address is below `n`. -/
def Memory.below (n : Nat) (m : Memory) : Bool := m.all fun c => decide (c.1 < n)

/-- The canonical form of a memory: addresses strictly rising, all of them inside the 256 bytes of
its space (spec/20_memory.md R70). -/
def Memory.wf (sp : Space) (m : Memory) : Bool :=
  Memory.risingFrom 0 m && Memory.below (Config.memSize sp) m

/-- The memory of a space. -/
def State.mem (sp : Space) (s : State) : Memory :=
  match sp with
  | .din => s.din
  | .fout => s.fout

/-- Replace the memory of a space. -/
def State.setMem (sp : Space) (m : Memory) (s : State) : State :=
  match sp with
  | .din => { s with din := m }
  | .fout => { s with fout := m }

/-- The byte at an address: the byte last written, or the free content the last reset left there
(spec/10_state.md R44, spec/70_reset_and_hazards.md R402). -/
def State.readByte (sp : Space) (s : State) (a : Nat) : Byte :=
  match Memory.get? (s.mem sp) a with
  | some x => x
  | none => Config.resetByte sp s.draws a

/-- The `n` bytes at `a`, `a + 1`, ..., `a + n - 1`. -/
def State.readBytes (sp : Space) (s : State) (a : Nat) (n : Nat) : List Byte :=
  match n with
  | 0 => []
  | k + 1 => State.readByte sp s a :: State.readBytes sp s (a + 1) k

/-- The tuple of R47 that a state of the machine stands for: its bytes are the ones that reads give. -/
def State.tuple (s : State) : Tuple :=
  { status := s.status
    crc := s.crc
    fcf := s.fcf
    fdec := s.fdec
    spb := s.spb
    sfd := s.sfd
    flen := s.flen
    padn := s.padn
    din := Vector.ofFn fun a => s.readByte .din a
    fout := Vector.ofFn fun a => s.readByte .fout a }

/-- A state of the machine that stands for a tuple: every byte listed, nothing on the command port, no
response sent. -/
def Tuple.toState (x : Tuple) : State :=
  { status := x.status
    crc := x.crc
    fcf := x.fcf
    fdec := x.fdec
    spb := x.spb
    sfd := x.sfd
    flen := x.flen
    padn := x.padn
    din := Memory.writeBytes [] 0 x.din.toList
    fout := Memory.writeBytes [] 0 x.fout.toList
    draws := 0
    inputs := []
    responses := [] }

/-- The tuple after reset (R401), with the contents drawn for DIN and FOUT (R402). -/
def Tuple.reset (din fout : Vector Byte 256) : Tuple :=
  { status := State.reset.status
    crc := State.reset.crc
    fcf := State.reset.fcf
    fdec := State.reset.fdec
    spb := State.reset.spb
    sfd := State.reset.sfd
    flen := State.reset.flen
    padn := State.reset.padn
    din := din
    fout := fout }

/-- MemRead(S, addr, n) (spec/00_scope.md R11): bytes outside the space do not exist (R70). -/
def State.memRead (sp : Space) (s : State) (a n : Nat) : Except Fault (List Byte) :=
  if a + n ≤ Config.memSize sp then .ok (s.readBytes sp a n) else .error (.addressOutsideSpace sp)

/-- MemWrite(S, addr, n, s) (spec/00_scope.md R11): bytes outside the space do not exist (R70). -/
def State.memWrite (sp : Space) (s : State) (a : Nat) (xs : List Byte) : Except Fault State :=
  if a + xs.length ≤ Config.memSize sp then
    .ok (s.setMem sp (Memory.writeBytes (s.mem sp) a xs))
  else .error (.addressOutsideSpace sp)

/-- Go on with the result of a memory operation, or stop with its fault. -/
def orFault {α : Type} (r : Except Fault α) (k : α → Host.Outcome State Fault Refusal) :
    Host.Outcome State Fault Refusal :=
  match r with
  | .ok x => k x
  | .error f => .fault f

/-! ## The end of a command -/

/-- The end of every command: the status update and the one response, whose data is 0 unless the
code is OK (R300, spec/30_encoding.md R111). -/
def finish (c : StatusCode) (f : BitVec 4) (data : Word) (s : State) : State :=
  { s with
    status := statusAfter s.status c f
    responses := s.responses ++ [⟨c.bits, if c = .ok then data else 0#32⟩] }

/-- A command completes with code OK and response data `data` (spec/00_scope.md R12). -/
def complete (data : Word) (s : State) : State := finish .ok 0#4 data s

/-- TAKING AN EXCEPTION: raise E(info) (spec/00_scope.md R11, R12). The block has no trap: the entry
is the status update and the error response, nothing else changes, and there is no return from it
(R302, R303). `s` is the state the command was accepted in. -/
def raise (c : StatusCode) (f : BitVec 4) (s : State) : State := finish c f 0#32 s

/-! ## Reset -/

/-- Reset as a step of its own (R400): every stored register takes its reset value (R401), and DIN
and FOUT hold unspecified bytes, a new draw (R402). What the outside world will send and what it has
received stay as they are. -/
def takeReset (s : State) : State :=
  { State.reset with
    draws := s.draws + 1
    inputs := s.inputs
    responses := s.responses }

end Sys2Proof.Machine
end

