-- ==== Sys2Proof/Machine/Operands.lean ====
section
/-! DEFINITION. The operand forms of the commands as their rules use them (spec/30_encoding.md R104
to R107): unsigned integers, zero-extended where they are narrower than what they go into. -/

namespace Sys2Proof.Machine

/-- zext_32 (spec/00_scope.md R11, R104). -/
def zext32 {n : Nat} (v : BitVec n) : Word := v.setWidth 32

/-- zext_16 (R11). -/
def zext16 {n : Nat} (v : BitVec n) : BitVec 16 := v.setWidth 16

/-- A number as a response data word. -/
def wordOfNat (n : Nat) : Word := BitVec.ofNat 32 n

/-- Reverse the order of the bits: bit i of the result is bit n - 1 - i of `v` (spec/40_crc.md R141,
R152). -/
def revBits {n : Nat} (v : BitVec n) : BitVec n := v.reverse

/-- `n` bytes of one value; zeros(n) is `fill n 0x00` (spec/00_scope.md R10). -/
def fill (n : Nat) (b : Byte) : List Byte := List.replicate n b

/-- The seven values that encode_fcf takes, each an unsigned integer (spec/41_fcf.md R171). -/
structure FcfFields where
  ft : Nat
  se : Nat
  fp : Nat
  ar : Nat
  pc : Nat
  dam : Nat
  sam : Nat
deriving DecidableEq, Repr

/-- The operands of format F as unsigned integers (R104, R106). -/
def fcfOperands (ft : BitVec 4) (se fp ar pc : BitVec 2) (dam sam : BitVec 3) : FcfFields :=
  { ft := ft.toNat, se := se.toNat, fp := fp.toNat, ar := ar.toNat, pc := pc.toNat,
    dam := dam.toNat, sam := sam.toNat }

end Sys2Proof.Machine
end

