-- ==== Sys2Proof/Machine/Padding.lean ====
section
/-! DEFINITION. The padding calculator (spec/43_padding.md) and the command PAD_CALC. -/

namespace Sys2Proof.Machine

/-- byte_modulus, for a positive `spb` (R230). -/
def byteModulus (spb : Nat) : Nat := Nat.lcm (Config.blockSamples / 8) spb / spb

/-- padding_bytes, for a positive `spb` (R231). -/
def paddingBytes (len spb : Nat) : Nat :=
  if len % byteModulus spb = 0 then 0 else byteModulus spb - len % byteModulus spb

/-- Register BMOD, a view of SPB with no storage of its own (spec/10_state.md R39). -/
def State.bmod (s : State) : BitVec 8 :=
  if s.spb = 0#8 then 0#8 else BitVec.ofNat 8 (byteModulus s.spb.toNat)

/-- PAD_CALC: compute the padding for a length (R233). -/
def execPadCalc (imm16 : BitVec 16) (s : State) : Host.Outcome State Fault Refusal :=
  if s.spb = 0#8 then .next (raise .errConfig 0#4 s)
  else
    .next (complete (wordOfNat (paddingBytes imm16.toNat s.spb.toNat))
      { s with padn := BitVec.ofNat 8 (paddingBytes imm16.toNat s.spb.toNat) })

end Sys2Proof.Machine
end

