-- ==== Sys2Proof/Machine/Control.lean ====
section
/-! DEFINITION. Control, configuration, data movement and register access (spec/44_control.md). -/

namespace Sys2Proof.Machine

/-- Register CAPS, the constant that describes the build (spec/10_state.md R40). -/
def capsWord : Word :=
  BitVec.ofNat 8 (Config.blockSamples / 8) ++ BitVec.ofNat 8 Config.tailLen ++
    BitVec.ofNat 8 Config.maxAddrLen ++ BitVec.ofNat 8 Config.maxPktSize

/-- The regno of each register (spec/10_state.md R33). -/
def RegName.regno : RegName → BitVec 8
  | .status => 0x00#8
  | .crc => 0x01#8
  | .fcf => 0x02#8
  | .fdec => 0x03#8
  | .spb => 0x04#8
  | .sfd => 0x05#8
  | .flen => 0x06#8
  | .padn => 0x07#8
  | .bmod => 0x08#8
  | .caps => 0x09#8

/-- The registers in the order of their regnos. -/
def allRegs : List RegName :=
  [.status, .crc, .fcf, .fdec, .spb, .sfd, .flen, .padn, .bmod, .caps]

/-- The register with a given regno; 0x0A to 0xFF are unassigned (R33). -/
def regOf (regno : BitVec 8) : Option RegName :=
  allRegs.find? fun r => RegName.regno r == regno

/-- The value of a register, zero-extended to 32 bits (R33, R257). -/
def State.readReg (s : State) (r : RegName) : Word :=
  match r with
  | .status => statusWord s.status
  | .crc => zext32 s.crc
  | .fcf => zext32 s.fcf
  | .fdec => zext32 s.fdec
  | .spb => zext32 s.spb
  | .sfd => zext32 s.sfd
  | .flen => zext32 s.flen
  | .padn => zext32 s.padn
  | .bmod => zext32 s.bmod
  | .caps => capsWord

/-- NOP: do nothing but the status update (R250). -/
def execNop (s : State) : Host.Outcome State Fault Refusal := .next (complete 0#32 s)

/-- CFG_SPB: configure samples per bit; 0 is refused with ERR_CONFIG (R251). -/
def execCfgSpb (imm8 : BitVec 8) (s : State) : Host.Outcome State Fault Refusal :=
  if imm8 = 0#8 then .next (raise .errConfig 0#4 s)
  else .next (complete (wordOfNat (byteModulus imm8.toNat)) { s with spb := imm8 })

/-- CFG_SFD: set the start-of-frame delimiter (R252). -/
def execCfgSfd (imm8 : BitVec 8) (s : State) : Host.Outcome State Fault Refusal :=
  .next (complete (zext32 imm8) { s with sfd := imm8 })

/-- CLR_ERR: clear STICKY, then the status update (R253). -/
def execClrErr (s : State) : Host.Outcome State Fault Refusal :=
  .next (complete 0#32 { s with status := clearSticky s.status })

/-- DIN_WR: write one byte of input data (R254). -/
def execDinWr (addr8 data8 : BitVec 8) (s : State) : Host.Outcome State Fault Refusal :=
  orFault (s.memWrite .din addr8.toNat [data8]) fun s' => .next (complete 0#32 s')

/-- The response data of a one-byte read: its first byte, zero-extended (R255, R256). -/
def firstByte (bytes : List Byte) : Word := zext32 (bytes.headD 0#8)

/-- DIN_RD: read one byte of input data (R255). -/
def execDinRd (imm8 : BitVec 8) (s : State) : Host.Outcome State Fault Refusal :=
  orFault (s.memRead .din imm8.toNat 1) fun bytes => .next (complete (firstByte bytes) s)

/-- FOUT_RD: read one byte of the frame output memory, at or beyond FLEN too (R256). -/
def execFoutRd (imm8 : BitVec 8) (s : State) : Host.Outcome State Fault Refusal :=
  orFault (s.memRead .fout imm8.toNat 1) fun bytes => .next (complete (firstByte bytes) s)

/-- REG_RD: read a register as it was before this command's own status update (R257). -/
def execRegRd (imm8 : BitVec 8) (s : State) : Host.Outcome State Fault Refusal :=
  match regOf imm8 with
  | some r => .next (complete (s.readReg r) s)
  | none => .next (raise .errRegno 0#4 s)

end Sys2Proof.Machine
end

