-- ==== Sys2Proof/Machine/Crc.lean ====
section
/-! DEFINITION. The CRC-16 engine (spec/40_crc.md): the table, the two datapaths, the reference
form, and the commands CRC_INIT, CRC_BYTE, CRC_BYTE_S and CRCT_RD. -/

namespace Sys2Proof.Machine

/-- One right shift of the reflected register: the loop body of R142. -/
def crcShift (c : BitVec 16) : BitVec 16 :=
  if c.getLsbD 0 then (c >>> 1) ^^^ Config.crcPolyRefl else c >>> 1

/-- Entry T[i] of the table ROM (R142, spec/10_state.md R41). -/
def crcTable (i : BitVec 8) : BitVec 16 :=
  Nat.repeat crcShift Config.bitsPerByte (zext16 i)

/-- The byte step of the table datapath (R143). -/
def crcStep (v : BitVec 16) (b : BitVec 8) : BitVec 16 :=
  crcTable (b ^^^ v.extractLsb' 0 8) ^^^ (v >>> 8)

/-- The CRC of a byte sequence (R143). -/
def crc16 (s : List Byte) (seed : BitVec 16) : BitVec 16 := s.foldl crcStep seed

/-- The two checksum bytes, most significant first (R144). -/
def checksumBytes (v : BitVec 16) : List Byte := [v.extractLsb' 8 8, v.extractLsb' 0 8]

/-- One bit of the bit-serial datapath: the loop body of R145 for bit `k` of `b`. -/
def crcSerialBit (b : BitVec 8) (v : BitVec 16) (k : Nat) : BitVec 16 :=
  let fb := v.getLsbD 0 ^^ b.getLsbD k
  let v := v >>> 1
  if fb then v ^^^ Config.crcPolyRefl else v

/-- The byte step of the bit-serial datapath, bit 0 of `b` first (R145). -/
def crcStepSerial (v : BitVec 16) (b : BitVec 8) : BitVec 16 :=
  [0, 1, 2, 3, 4, 5, 6, 7].foldl (crcSerialBit b) v

/-- shl1 of the augmented reference form (R152). -/
def shl1 (a : BitVec 16) (bit : Bool) : BitVec 16 :=
  let top := a.getLsbD 15
  let a := (a <<< 1) ||| (BitVec.ofBool bit).setWidth 16
  if top then a ^^^ Config.crcPoly else a

/-- The augmented reference form takes the bits of the reversed byte from bit 7 down to bit 0
(R152). -/
def augByte (a : BitVec 16) (b : Byte) : BitVec 16 :=
  [7, 6, 5, 4, 3, 2, 1, 0].foldl (fun a k => shl1 a ((revBits b).getLsbD k)) a

/-- The augmented reference form, for seed 0 (R152). The block has no command for it. -/
def crc16Aug (s : List Byte) : BitVec 16 :=
  revBits (Nat.repeat (fun a => shl1 a false) 16 (s.foldl augByte 0#16))

/-- CRC_INIT: load the seed (R147). -/
def execCrcInit (imm16 : BitVec 16) (s : State) : Host.Outcome State Fault Refusal :=
  .next (complete (zext32 imm16) { s with crc := imm16 })

/-- CRC_BYTE: feed one byte through the table datapath (R148). -/
def execCrcByte (imm8 : BitVec 8) (s : State) : Host.Outcome State Fault Refusal :=
  .next (complete (zext32 (crcStep s.crc imm8)) { s with crc := crcStep s.crc imm8 })

/-- CRC_BYTE_S: feed one byte through the bit-serial datapath (R149). -/
def execCrcByteS (imm8 : BitVec 8) (s : State) : Host.Outcome State Fault Refusal :=
  .next (complete (zext32 (crcStepSerial s.crc imm8)) { s with crc := crcStepSerial s.crc imm8 })

/-- CRCT_RD: read one table entry (R150). -/
def execCrctRd (imm8 : BitVec 8) (s : State) : Host.Outcome State Fault Refusal :=
  .next (complete (zext32 (crcTable imm8)) s)

end Sys2Proof.Machine
end

