-- ==== Sys2Proof/Machine/Fcf.lean ====
section
/-! DEFINITION. The frame control field codec (spec/41_fcf.md): pack, unpack and serialise, and the
commands FCF_ENC, FCF_LOAD and FCF_DEC. -/

namespace Sys2Proof.Machine

/-- The STATUS.FIELD index of the first sub-field whose value does not fit, in index order, or none
if all fit (R170, R171). -/
def fcfOverflow (f : FcfFields) : Option (BitVec 4) :=
  if f.ft > 7 then some 1#4
  else if f.se > 1 then some 2#4
  else if f.fp > 1 then some 3#4
  else if f.ar > 1 then some 4#4
  else if f.pc > 1 then some 5#4
  else if f.dam > 3 then some 6#4
  else if f.sam > 3 then some 7#4
  else none

/-- The packed 16-bit integer: every sub-field shifted to its position (R170, R171). -/
def packFcf (f : FcfFields) : BitVec 16 :=
  BitVec.ofNat 16 f.ft ||| BitVec.ofNat 16 f.se <<< 3 ||| BitVec.ofNat 16 f.fp <<< 4 |||
    BitVec.ofNat 16 f.ar <<< 5 ||| BitVec.ofNat 16 f.pc <<< 6 ||| BitVec.ofNat 16 f.dam <<< 10 |||
    BitVec.ofNat 16 f.sam <<< 14

/-- encode_fcf: the packed FCF, or the index of the first sub-field that overflows (R171). -/
def encodeFcf (f : FcfFields) : Except (BitVec 4) (BitVec 16) :=
  match fcfOverflow f with
  | some index => .error index
  | none => .ok (packFcf f)

/-- decode_fcf: the seven sub-fields; the reserved bits are ignored (R172). -/
def decodeFcf (v : BitVec 16) : FcfFields :=
  { ft := (v.extractLsb' 0 3).toNat
    se := (v.extractLsb' 3 1).toNat
    fp := (v.extractLsb' 4 1).toNat
    ar := (v.extractLsb' 5 1).toNat
    pc := (v.extractLsb' 6 1).toNat
    dam := (v.extractLsb' 10 2).toNat
    sam := (v.extractLsb' 14 2).toNat }

/-- The FCF serialised least significant byte first (R173). -/
def fcfBytes (v : BitVec 16) : List Byte := [v.extractLsb' 0 8, v.extractLsb' 8 8]

/-- The sub-fields in the layout of register FDEC and of format F (R176, spec/10_state.md R37). -/
def packFdec (d : FcfFields) : BitVec 18 :=
  BitVec.ofNat 18 d.ft ||| BitVec.ofNat 18 d.se <<< 4 ||| BitVec.ofNat 18 d.fp <<< 6 |||
    BitVec.ofNat 18 d.ar <<< 8 ||| BitVec.ofNat 18 d.pc <<< 10 ||| BitVec.ofNat 18 d.dam <<< 12 |||
    BitVec.ofNat 18 d.sam <<< 15

/-- FCF_ENC: validate and pack the FCF (R174). -/
def execFcfEnc (ft : BitVec 4) (se fp ar pc : BitVec 2) (dam sam : BitVec 3) (s : State) :
    Host.Outcome State Fault Refusal :=
  match encodeFcf (fcfOperands ft se fp ar pc dam sam) with
  | .error index => .next (raise .errFcfOverflow index s)
  | .ok v => .next (complete (zext32 v) { s with fcf := v })

/-- FCF_LOAD: load a raw 16-bit FCF, reserved bits included (R175). -/
def execFcfLoad (imm16 : BitVec 16) (s : State) : Host.Outcome State Fault Refusal :=
  .next (complete (zext32 imm16) { s with fcf := imm16 })

/-- FCF_DEC: unpack FCF into FDEC (R176). -/
def execFcfDec (s : State) : Host.Outcome State Fault Refusal :=
  .next (complete (zext32 (packFdec (decodeFcf s.fcf))) { s with fdec := packFdec (decodeFcf s.fcf) })

end Sys2Proof.Machine
end

