-- ==== Sys2Proof/Machine/Frame.lean ====
section
/-! DEFINITION. The frame assembler (spec/42_frame.md): the frame as a function of its inputs, and
the command BUILD. -/

namespace Sys2Proof.Machine

/-- The SHR: the preamble bytes, then the SFD byte (R201). -/
def shrBytes (sfd : Byte) : List Byte := fill Config.preambleLen Config.preambleByte ++ [sfd]

/-- The MPDU: FCF, sequence number, address info, payload (R203). -/
def mpduBytes (fcf : BitVec 16) (seq : Byte) (addr payload : List Byte) : List Byte :=
  fcfBytes fcf ++ [seq] ++ addr ++ payload

/-- The FCS: the CRC of the MPDU with seed 0, most significant byte first (R204). -/
def fcsBytes (mpdu : List Byte) : List Byte := checksumBytes (crc16 mpdu Config.crcSeedDefault)

/-- The frame through the FCS: SHR, PHR (the length of MPDU plus FCS, R202), MPDU, FCS (R200). -/
def bareFrame (fcf : BitVec 16) (seq : Byte) (addr payload : List Byte) (sfd : Byte) : List Byte :=
  let mpdu := mpduBytes fcf seq addr payload
  shrBytes sfd ++ [BitVec.ofNat 8 (mpdu.length + 2)] ++ mpdu ++ fcsBytes mpdu

/-- The padding over the length so far, then the tail (R205). -/
def padFrame (spb : Nat) (f : List Byte) : List Byte :=
  f ++ fill (paddingBytes f.length spb) Config.padByte ++ fill Config.tailLen Config.padByte

/-- The frame function (R200). -/
def frame (fcf : BitVec 16) (seq : Byte) (addr payload : List Byte) (pad : BitVec 1) (spb : Nat)
    (sfd : Byte) : List Byte :=
  if pad = 1#1 then padFrame spb (bareFrame fcf seq addr payload sfd)
  else bareFrame fcf seq addr payload sfd

/-- The first check of BUILD that fails, in the order of R206 and spec/60_exceptions.md R304. -/
def buildError (w : BitVec 8) (v : BitVec 5) (pad : BitVec 1) (seq : BitVec 9) (spb : BitVec 8) :
    Option StatusCode :=
  if seq.toNat > 255 then some .errSeq
  else if v.toNat > Config.maxAddrLen then some .errAddrLen
  else if w.toNat > Config.maxPktSize - Config.mpduOverhead - v.toNat then some .errPayloadLen
  else if pad = 1#1 ∧ spb = 0#8 then some .errConfig
  else none

/-- BUILD: validate the frame inputs and assemble the frame into FOUT (R206). -/
def execBuild (w : BitVec 8) (v : BitVec 5) (pad : BitVec 1) (seq : BitVec 9) (s : State) :
    Host.Outcome State Fault Refusal :=
  match buildError w v pad seq s.spb with
  | some e => .next (raise e 0#4 s)
  | none =>
    orFault (s.memRead .din 0 v.toNat) fun addr =>
    orFault (s.memRead .din v.toNat w.toNat) fun payload =>
    let f := frame s.fcf (seq.setWidth 8) addr payload pad s.spb.toNat s.sfd
    orFault (s.memWrite .fout 0 f) fun s' =>
    .next (complete (wordOfNat f.length) { s' with flen := BitVec.ofNat 8 f.length })

end Sys2Proof.Machine
end

