-- ==== Sys2Proof/Machine/Dispatch.lean ====
section
/-! DEFINITION. One arm per command: spec/30_encoding.md R102, step 3. -/

namespace Sys2Proof.Machine

def exec (i : Instr) (s : State) : Host.Outcome State Fault Refusal :=
  match i with
  | .nop => Sys2Proof.Machine.execNop s
  | .cfgSpb imm8 => Sys2Proof.Machine.execCfgSpb imm8 s
  | .cfgSfd imm8 => Sys2Proof.Machine.execCfgSfd imm8 s
  | .clrErr => Sys2Proof.Machine.execClrErr s
  | .crcInit imm16 => Sys2Proof.Machine.execCrcInit imm16 s
  | .crcByte imm8 => Sys2Proof.Machine.execCrcByte imm8 s
  | .crcByteS imm8 => Sys2Proof.Machine.execCrcByteS imm8 s
  | .crctRd imm8 => Sys2Proof.Machine.execCrctRd imm8 s
  | .fcfEnc ft se fp ar pc dam sam => Sys2Proof.Machine.execFcfEnc ft se fp ar pc dam sam s
  | .fcfLoad imm16 => Sys2Proof.Machine.execFcfLoad imm16 s
  | .fcfDec => Sys2Proof.Machine.execFcfDec s
  | .build w v pad seq => Sys2Proof.Machine.execBuild w v pad seq s
  | .padCalc imm16 => Sys2Proof.Machine.execPadCalc imm16 s
  | .dinWr addr8 data8 => Sys2Proof.Machine.execDinWr addr8 data8 s
  | .dinRd imm8 => Sys2Proof.Machine.execDinRd imm8 s
  | .foutRd imm8 => Sys2Proof.Machine.execFoutRd imm8 s
  | .regRd imm8 => Sys2Proof.Machine.execRegRd imm8 s

end Sys2Proof.Machine
end

