-- ==== Sys2Proof/Machine/Port.lean ====
section
/-! DEFINITION. What the block does with one input from outside: a command word
(spec/30_encoding.md R100, R102) or reset (spec/70_reset_and_hazards.md R400). -/

namespace Sys2Proof.Machine

/-- Execute one command word: the opcode check, the reserved-bit check, then the command's rule
(R102). A word that is no command raises its status code. -/
def execWord (cmd : Word) (s : State) : Host.Outcome State Fault Refusal :=
  match decode cmd with
  | .ok i => exec i s
  | .error e => .next (raise (codeOfDecodeError e) 0#4 s)

/-- Take one input. Reset asserted while a command executes leaves that command without effect and
without a response (R400, spec/93 I12). -/
def takeInput (i : Input) (s : State) : Host.Outcome State Fault Refusal :=
  match i with
  | .command cmd => execWord cmd s
  | .reset => .next (takeReset s)
  | .resetDuring _ => .next (takeReset s)

/-- The one response that a state reached from one without responses holds. -/
def onlyResponse (rs : List Response) : Response := rs.headD ⟨0x00#8, 0#32⟩

/-- The block as a function on its architectural state alone (spec/10_state.md R47): a tuple and a
command word give the next tuple and the response (spec/00_scope.md R2, R12). -/
def Tuple.command (x : Tuple) (cmd : Word) : Host.Outcome (Tuple × Response) Fault Refusal :=
  match execWord cmd x.toState with
  | .next t => .next (t.tuple, onlyResponse t.responses)
  | .fault f => .fault f
  | .refused r => .refused r

end Sys2Proof.Machine
end

