-- ==== Sys2Proof/Machine/Step.lean ====
section
/-! DEFINITION. One step of the machine: the next input from outside is taken, completely and
atomically (spec/20_memory.md R77, spec/70_reset_and_hazards.md R405). -/

namespace Sys2Proof.Machine

/-- One step. With nothing on the command port the block waits: no event occurs outside a command
(spec/60_exceptions.md R307), so nothing changes (notes/assumptions/1.md). -/
def step (s : State) : Host.Outcome State Fault Refusal :=
  match s.inputs with
  | [] => .next s
  | i :: rest => takeInput i { s with inputs := rest }

/-- The state whose next step takes the command word that the opcode table numbers `w`: the word is
put before the inputs still to come. -/
def State.withFetchWord (s : State) (nbits w : Nat) : State :=
  { s with inputs := .command (tableWord nbits w) :: s.inputs }

end Sys2Proof.Machine
end

