-- ==== Sys2Proof/Machine/Assembler.lean ====
section
/-! DEFINITION. The assembler: the commands and command words of a line (spec/30_encoding.md R112),
the expansion of the pseudo-commands (R113), and the reading of a program's text. The block knows
nothing of it: it takes the words. -/

namespace Sys2Proof.Machine

/-! ## Lines to commands -/

/-- The DIN_WR commands of DIN_LOAD: one per byte, at rising addresses (R113). -/
def dinWrites (a : Nat) (bs : List Nat) : List Instr :=
  match bs with
  | [] => []
  | b :: rest => .dinWr (BitVec.ofNat 8 a) (BitVec.ofNat 8 b) :: dinWrites (a + 1) rest

/-- The CRC_BYTE commands of CRC_BYTES (R113). -/
def crcByteCommands (bs : List Nat) : List Instr := bs.map fun b => .crcByte (BitVec.ofNat 8 b)

/-- The commands a line stands for, in order, once its operands are known to fit (R112, R113). -/
def expandLine : AsmLine → List Instr
  | .nop => [.nop]
  | .cfgSpb n => [.cfgSpb (BitVec.ofNat 8 n)]
  | .cfgSfd n => [.cfgSfd (BitVec.ofNat 8 n)]
  | .clrErr => [.clrErr]
  | .crcInit n => [.crcInit (BitVec.ofNat 16 n)]
  | .crcByte n => [.crcByte (BitVec.ofNat 8 n)]
  | .crcByteS n => [.crcByteS (BitVec.ofNat 8 n)]
  | .crctRd n => [.crctRd (BitVec.ofNat 8 n)]
  | .fcfEnc f =>
    [.fcfEnc (BitVec.ofNat 4 f.ft) (BitVec.ofNat 2 f.se) (BitVec.ofNat 2 f.fp)
      (BitVec.ofNat 2 f.ar) (BitVec.ofNat 2 f.pc) (BitVec.ofNat 3 f.dam) (BitVec.ofNat 3 f.sam)]
  | .fcfLoad n => [.fcfLoad (BitVec.ofNat 16 n)]
  | .fcfDec => [.fcfDec]
  | .build b =>
    [.build (BitVec.ofNat 8 b.w) (BitVec.ofNat 5 b.v) (BitVec.ofNat 1 b.pad) (BitVec.ofNat 9 b.seq)]
  | .padCalc n => [.padCalc (BitVec.ofNat 16 n)]
  | .dinWr a d => [.dinWr (BitVec.ofNat 8 a) (BitVec.ofNat 8 d)]
  | .dinRd n => [.dinRd (BitVec.ofNat 8 n)]
  | .foutRd n => [.foutRd (BitVec.ofNat 8 n)]
  | .regRd n => [.regRd (BitVec.ofNat 8 n)]
  | .regRdName r => [.regRd (RegName.regno r)]
  | .crcBytes bs => crcByteCommands bs
  | .crcStr text => crcByteCommands (text.map Char.toNat)
  | .crc16 seed bs => .crcInit (BitVec.ofNat 16 seed) :: crcByteCommands bs
  | .dinLoad a bs => dinWrites a bs
  | .rd r => [.regRd (RegName.regno r)]

/-- The commands of a line, or none where the assembler rejects an operand (R112, R113). -/
def assemble (l : AsmLine) : Option (List Instr) := if l.wf then some (expandLine l) else none

/-! ## Text to lines -/

/-- The double quote that encloses the text of CRC_STR. -/
def quoteChar : Char := Char.ofNat 34

/-- A blank inside a line. -/
def isBlank (c : Char) : Bool := c == ' ' || c == '\t' || c == '\r'

/-- The line up to its comment: a semicolon outside a quoted text starts one (R112). -/
def stripComment (inText : Bool) : List Char → List Char
  | [] => []
  | c :: cs =>
    if !inText && c == ';' then [] else c :: stripComment (inText ^^ (c == quoteChar)) cs

/-- Leave out the blanks at both ends. -/
def trimBlanks (cs : List Char) : List Char :=
  ((cs.dropWhile isBlank).reverse.dropWhile isBlank).reverse

/-- Cut a text at every `sep`. -/
def splitAt (sep : Char) : List Char → List (List Char)
  | [] => [[]]
  | c :: cs =>
    match splitAt sep cs with
    | [] => [[c]]
    | part :: parts => if c == sep then [] :: part :: parts else (c :: part) :: parts

/-- The value of a digit in base `base`. -/
def digitOf (base : Nat) (c : Char) : Option Nat :=
  let n := c.toNat
  let v := if 48 ≤ n ∧ n ≤ 57 then n - 48
    else if 97 ≤ n ∧ n ≤ 102 then n - 87
    else if 65 ≤ n ∧ n ≤ 70 then n - 55
    else base
  if v < base then some v else none

/-- The number a digit string denotes, most significant digit first. -/
def digitsValue (base : Nat) : List Char → Nat → Option Nat
  | [], acc => some acc
  | c :: cs, acc =>
    match digitOf base c with
    | some d => digitsValue base cs (acc * base + d)
    | none => none

/-- A number: decimal, or hexadecimal after `0x` (R112). -/
def parseNumber (cs : List Char) : Option Nat :=
  match trimBlanks cs with
  | [] => none
  | '0' :: 'x' :: [] => none
  | '0' :: 'x' :: ds => digitsValue 16 ds 0
  | ds => digitsValue 10 ds 0

/-- Every operand as a number. -/
def parseNumbers : List (List Char) → Option (List Nat)
  | [] => some []
  | t :: ts =>
    match parseNumber t, parseNumbers ts with
    | some n, some ns => some (n :: ns)
    | _, _ => none

/-- A register name (R112). -/
def parseReg (cs : List Char) : Option RegName :=
  let t := trimBlanks cs
  if t == "STATUS".toList then some .status
  else if t == "CRC".toList then some .crc
  else if t == "FCF".toList then some .fcf
  else if t == "FDEC".toList then some .fdec
  else if t == "SPB".toList then some .spb
  else if t == "SFD".toList then some .sfd
  else if t == "FLEN".toList then some .flen
  else if t == "PADN".toList then some .padn
  else if t == "BMOD".toList then some .bmod
  else if t == "CAPS".toList then some .caps
  else none

/-- Every operand as `name=number` (R112). Blanks on both sides of the `=` are accepted, which R112
leaves open: DESIGN CHOICE (notes/assumptions/13.md). -/
def parseNamed : List (List Char) → Option (List (List Char × Nat))
  | [] => some []
  | t :: ts =>
    match splitAt '=' t, parseNamed ts with
    | [name, value], some rest =>
      match parseNumber value with
      | some n => some ((trimBlanks name, n) :: rest)
      | none => none
    | _, _ => none

/-- Only the given names stand, and none of them twice. -/
def namesFit (names : List (List Char)) (ops : List (List Char × Nat)) : Bool :=
  ops.all (fun p => names.contains p.1) && decide (ops.map Prod.fst).Nodup

/-- The value of a named operand; an omitted one is 0 (R112). -/
def operandOf (ops : List (List Char × Nat)) (name : List Char) : Nat :=
  (ops.lookup name).getD 0

/-- The operands of FCF_ENC, in any order (R112). -/
def parseFcfEnc (args : List (List Char)) : Option AsmLine :=
  match parseNamed args with
  | none => none
  | some ops =>
    if namesFit (["ft", "se", "fp", "ar", "pc", "dam", "sam"].map String.toList) ops then
      some (.fcfEnc
        { ft := operandOf ops "ft".toList, se := operandOf ops "se".toList,
          fp := operandOf ops "fp".toList, ar := operandOf ops "ar".toList,
          pc := operandOf ops "pc".toList, dam := operandOf ops "dam".toList,
          sam := operandOf ops "sam".toList })
    else none

/-- The operands of BUILD, in any order (R112). -/
def parseBuild (args : List (List Char)) : Option AsmLine :=
  match parseNamed args with
  | none => none
  | some ops =>
    if namesFit (["seq", "v", "w", "pad"].map String.toList) ops then
      some (.build
        { seq := operandOf ops "seq".toList, v := operandOf ops "v".toList,
          w := operandOf ops "w".toList, pad := operandOf ops "pad".toList })
    else none

/-- The quoted text of CRC_STR, without its quotes (R113). -/
def parseQuoted (cs : List Char) : Option (List Char) :=
  match cs with
  | q :: rest =>
    match rest.reverse with
    | q' :: text =>
      if q == quoteChar && q' == quoteChar && !text.contains quoteChar then some text.reverse
      else none
    | [] => none
  | [] => none

/-- A line with no operand. -/
def noOperand (l : AsmLine) (args : List (List Char)) : Option AsmLine :=
  if args.isEmpty then some l else none

/-- A line with one number. -/
def oneNumber (f : Nat → AsmLine) (args : List (List Char)) : Option AsmLine :=
  match parseNumbers args with
  | some [n] => some (f n)
  | _ => none

/-- A line with two numbers. -/
def twoNumbers (f : Nat → Nat → AsmLine) (args : List (List Char)) : Option AsmLine :=
  match parseNumbers args with
  | some [m, n] => some (f m n)
  | _ => none

/-- REG_RD takes a register name or a number (R112). -/
def parseRegRd (args : List (List Char)) : Option AsmLine :=
  match args with
  | [t] =>
    match parseReg t with
    | some r => some (.regRdName r)
    | none => oneNumber .regRd args
  | _ => none

/-- RD takes a register name (R113). -/
def parseRd (args : List (List Char)) : Option AsmLine :=
  match args with
  | [t] => (parseReg t).map .rd
  | _ => none

/-- CRC_BYTES and what follows the first operand of CRC16 and DIN_LOAD: a list of bytes (R113). -/
def parseList (f : List Nat → AsmLine) (args : List (List Char)) : Option AsmLine :=
  (parseNumbers args).map f

/-- A first number, then a list of bytes (R113). -/
def parseHeadList (f : Nat → List Nat → AsmLine) (args : List (List Char)) : Option AsmLine :=
  match parseNumbers args with
  | some (n :: bs) => some (f n bs)
  | _ => none

/-- A line from its mnemonic and the rest of the line (R112, R113). -/
def parseCommand (m rest : List Char) : Option AsmLine :=
  let args := if rest.isEmpty then [] else splitAt ',' rest
  if m == "NOP".toList then noOperand .nop args
  else if m == "CFG_SPB".toList then oneNumber .cfgSpb args
  else if m == "CFG_SFD".toList then oneNumber .cfgSfd args
  else if m == "CLR_ERR".toList then noOperand .clrErr args
  else if m == "CRC_INIT".toList then oneNumber .crcInit args
  else if m == "CRC_BYTE".toList then oneNumber .crcByte args
  else if m == "CRC_BYTE_S".toList then oneNumber .crcByteS args
  else if m == "CRCT_RD".toList then oneNumber .crctRd args
  else if m == "FCF_ENC".toList then parseFcfEnc args
  else if m == "FCF_LOAD".toList then oneNumber .fcfLoad args
  else if m == "FCF_DEC".toList then noOperand .fcfDec args
  else if m == "BUILD".toList then parseBuild args
  else if m == "PAD_CALC".toList then oneNumber .padCalc args
  else if m == "DIN_WR".toList then twoNumbers .dinWr args
  else if m == "DIN_RD".toList then oneNumber .dinRd args
  else if m == "FOUT_RD".toList then oneNumber .foutRd args
  else if m == "REG_RD".toList then parseRegRd args
  else if m == "CRC_BYTES".toList then parseList .crcBytes args
  else if m == "CRC_STR".toList then (parseQuoted rest).map .crcStr
  else if m == "CRC16".toList then parseHeadList .crc16 args
  else if m == "DIN_LOAD".toList then parseHeadList .dinLoad args
  else if m == "RD".toList then parseRd args
  else none

/-- One line of text: no command where nothing stands before the comment, else one line of the
assembler; none where the text is no line (R112). -/
def parseLine (cs : List Char) : Option (List AsmLine) :=
  let t := trimBlanks (stripComment false cs)
  if t.isEmpty then some []
  else
    (parseCommand (t.takeWhile fun c => !isBlank c)
      (trimBlanks (t.dropWhile fun c => !isBlank c))).map fun l => [l]

/-- Join the results of several lines; a rejected one rejects all. -/
def joinAll {α : Type} : List (Option (List α)) → Option (List α)
  | [] => some []
  | x :: xs =>
    match x, joinAll xs with
    | some a, some b => some (a ++ b)
    | _, _ => none

/-- The lines of a program's text, one command a line (R112). -/
def parseText (text : List Char) : Option (List AsmLine) :=
  joinAll ((splitAt '\n' text).map parseLine)

/-- The command words of a program's text, in order (R112, R113). -/
def assembleText (text : List Char) : Option (List Word) :=
  match parseText text with
  | none => none
  | some ls => (joinAll (ls.map assemble)).map fun is => is.map encode

end Sys2Proof.Machine
end

