-- ==== Sys2Proof/Safety.lean ====
section
/-! DEFINITION. The terms the statements use, written from the spec and not from the meanings: what a
command that completes or raises leaves, what an encoding says, and what a legal state is. -/

namespace Sys2Proof.Safety

open Sys2Proof.Machine

/-- The step neither faults nor refuses (spec/60_exceptions.md R311, spec/70_reset_and_hazards.md
R409). -/
def Completes (s : State) : Prop := ∃ t, step s = .next t

/-- What spec/60_exceptions.md R300 makes of `s` when a command completes with code OK and response
data `data`: CODE and FIELD are 0, STICKY (bit 16) stays, the response is (OK, data). -/
def afterOk (data : Word) (s : State) : State :=
  { s with
    status := s.status &&& 0x10000#17
    responses := s.responses ++ [⟨0x00#8, data⟩] }

/-- What R300 and R302 make of `s` when a command raises: CODE and FIELD as given, STICKY set, the
response is (code, 0), and nothing else changes. -/
def afterError (code : Byte) (field : BitVec 4) (s : State) : State :=
  { s with
    status := 1#1 ++ 0#4 ++ field ++ code
    responses := s.responses ++ [⟨code, 0#32⟩] }

/-- A command's encoding (spec/30_encoding.md R102, R108): a word with opcode number `opc` is the
command `operands` makes of it when no bit of `reserved` is set, and raises ERR_RESERVED with no
other effect when one is. -/
def Encoding (opc : Byte) (reserved : Word) (operands : Word → Instr) : Prop :=
  ∀ cmd : Word, cmd.extractLsb' 24 8 = opc →
    (cmd &&& reserved = 0#32 → decode cmd = .ok (operands cmd)) ∧
    (cmd &&& reserved ≠ 0#32 → ∀ s, execWord cmd s = .next (afterError 0x02#8 0#4 s))

/-- The opcode numbers that spec/30_encoding.md R109 lists as unassigned. -/
def unassignedOpcode (op : Nat) : Bool :=
  (decide (0x04 ≤ op) && decide (op ≤ 0x0F)) || (decide (0x14 ≤ op) && decide (op ≤ 0x1F)) ||
  (decide (0x23 ≤ op) && decide (op ≤ 0x2F)) || (decide (0x31 ≤ op) && decide (op ≤ 0x37)) ||
  (decide (0x39 ≤ op) && decide (op ≤ 0x3F)) || (decide (0x43 ≤ op) && decide (op ≤ 0x4F)) ||
  (decide (0x51 ≤ op) && decide (op ≤ 0xFF))

/-- Execute commands one after another, stopping at the first that faults or refuses. -/
def execAll : List Instr → State → Host.Outcome State Fault Refusal
  | [], s => .next s
  | i :: rest, s =>
    match exec i s with
    | .next t => execAll rest t
    | .fault f => .fault f
    | .refused r => .refused r

/-- The operands of a BUILD that passes the checks of spec/42_frame.md R206 with SPB = `spb`. -/
abbrev LegalBuild (w : BitVec 8) (v : BitVec 5) (pad : BitVec 1) (seq : BitVec 9) (spb : BitVec 8) :
    Prop :=
  seq.toNat ≤ 255 ∧ v.toNat ≤ 20 ∧ v.toNat + w.toNat ≤ 123 ∧ (pad = 1#1 → spb ≠ 0#8)

/-- The two memories are in their canonical form (the model's, notes/assumptions/2.md), and FOUT lists
nothing at or beyond address 149 (spec/20_memory.md R70, R71). -/
abbrev LegalMemories (s : State) : Prop :=
  Memory.wf .din s.din = true ∧ Memory.wf .fout s.fout = true ∧ Memory.below 149 s.fout = true

/-- STATUS as spec/10_state.md R34 and spec/60_exceptions.md R300, R301 allow it: reserved bits 0, a
listed code, FIELD 1 to 7 for ERR_FCF_OVERFLOW and 0 for every other code, and STICKY set while CODE
is an error. -/
abbrev LegalStatus (st : BitVec 17) : Prop :=
  st.extractLsb' 12 4 = 0#4 ∧
  st.extractLsb' 0 8 ∈ [0x00#8, 0x01#8, 0x02#8, 0x03#8, 0x10#8, 0x11#8, 0x12#8, 0x13#8, 0x20#8] ∧
  (st.extractLsb' 0 8 = 0x13#8 →
    1 ≤ (st.extractLsb' 8 4).toNat ∧ (st.extractLsb' 8 4).toNat ≤ 7) ∧
  (st.extractLsb' 0 8 ≠ 0x13#8 → st.extractLsb' 8 4 = 0#4) ∧
  (st.extractLsb' 0 8 ≠ 0x00#8 → st.getLsbD 16 = true)

/-- The result registers hold values their commands can write: FDEC only sub-field bits (R37, R176),
PADN below 16 (R233), FLEN 0 or a frame length (R38, R210, R211). -/
abbrev LegalResults (s : State) : Prop :=
  s.fdec &&& 0x24AA8#18 = 0#18 ∧ s.padn.toNat < 16 ∧
  (s.flen.toNat = 0 ∨ 11 ≤ s.flen.toNat ∧ s.flen.toNat ≤ 149)

/-- A legal state: what every state the block reaches is like. -/
abbrev LegalState (s : State) : Prop := LegalMemories s ∧ LegalStatus s.status ∧ LegalResults s

/-- FOUT holds a frame (spec/10_state.md R38, R45): FLEN is 0, or FOUT[0..FLEN-1] is the frame of
some inputs that BUILD accepts. -/
def FoutHoldsFrame (s : State) : Prop :=
  s.flen = 0#8 ∨
  ∃ (fcf : BitVec 16) (seq : Byte) (addr payload : List Byte) (pad : BitVec 1) (spb : BitVec 8)
    (sfd : Byte),
    addr.length ≤ 20 ∧ addr.length + payload.length ≤ 123 ∧ (pad = 1#1 → spb ≠ 0#8) ∧
    s.flen.toNat = (frame fcf seq addr payload pad spb.toNat sfd).length ∧
    s.readBytes .fout 0 s.flen.toNat = frame fcf seq addr payload pad spb.toNat sfd

/-- Two states agree on everything a BUILD with lengths `v` and `w` reads: FCF, SFD, SPB and
DIN[0..v+w-1] (spec/20_memory.md R80, spec/42_frame.md R206). -/
def SameBuildInputs (v w : Nat) (s s' : State) : Prop :=
  s.fcf = s'.fcf ∧ s.sfd = s'.sfd ∧ s.spb = s'.spb ∧
  ∀ a, a < v + w → s.readByte .din a = s'.readByte .din a

/-- Two states stand for the same tuple of spec/10_state.md R47: the eight stored registers and the 256
bytes of DIN and of FOUT, as they read. Nothing is said of the model's own fields, nor of which bytes
a memory lists. -/
def SameTuple (s s' : State) : Prop := s.tuple = s'.tuple

end Sys2Proof.Safety
end

