-- ==== Sys2Proof/Certificates/Slice0/Obligations.lean ====
section
/-! DEFINITION. The statements for the provers. Each formalises a rule of spec/, or is marked in its
docstring as the model's own choice. `afterOk` and `afterError` (Sys2Proof/Safety.lean) write out the
state R300 leaves; an equation with one of them also says that every other register, every byte of
both memories, the inputs to come and the responses already sent stay as they were. -/

open Sys2Proof Sys2Proof.Machine Sys2Proof.Safety

/-! ## Encoding -/

/-- Decoding the word of any command gives the command back (R101, R105 to R108). -/
def Obligations.DecodeOfEncodeIsTheCommand : Prop :=
  ∀ i : Instr, decode (encode i) = .ok i

/-- A word that decodes to a command is that command's one word: no reserved bit is dropped (R103). -/
def Obligations.EncodeOfDecodedWordIsTheWord : Prop :=
  ∀ (cmd : Word) (i : Instr), decode cmd = .ok i → encode i = cmd

/-- R108: a word is command M exactly when its masked bits are M's match bits. -/
def Obligations.WordIsCommandWhenMaskedBitsMatch : Prop :=
  ∀ row ∈ opcodeTable, ∀ cmd : Word,
    (∃ i, decode cmd = .ok i ∧ i.opcode = row.opcode) ↔ cmd &&& row.mask = row.matchBits

/-- R109: the 239 unassigned opcode numbers, and ERR_ILLEGAL for each, whatever the operand bits. -/
def Obligations.UnassignedOpcodesRaiseErrIllegal : Prop :=
  ((List.range 256).filter unassignedOpcode).length = 239 ∧
  ∀ (cmd : Word) (s : State), unassignedOpcode (cmd.extractLsb' 24 8).toNat = true →
    execWord cmd s = .next (afterError 0x01#8 0#4 s)

/-- A few words written out from R101 and R108 decode to the commands they stand for. -/
def Obligations.SampleWordsDecodeAsWritten : Prop :=
  decode 0x12000056#32 = .ok (.crcByteS 0x56#8) ∧
  decode 0x2001B557#32 = .ok (.fcfEnc 7#4 1#2 1#2 1#2 1#2 3#3 3#3) ∧
  decode 0x30006804#32 = .ok (.build 4#8 8#5 1#1 1#9) ∧
  decode 0x3800FFFF#32 = .ok (.padCalc 0xFFFF#16) ∧
  decode 0x4000092A#32 = .ok (.dinWr 0x09#8 0x2A#8) ∧
  decode 0x30800000#32 = .error .reserved ∧ decode 0xFF000000#32 = .error .illegal

/-! ## One step of the machine -/

/-- With a command word next, the step executes the command it decodes to, or raises ERR_ILLEGAL or
ERR_RESERVED, on the state without that word (R102, R405). -/
def Obligations.StepExecutesTheDecodedWord : Prop :=
  ∀ (s : State) (cmd : Word) (rest : List Input), s.inputs = .command cmd :: rest →
    (∀ i, decode cmd = .ok i → step s = exec i { s with inputs := rest }) ∧
    (decode cmd = .error .illegal →
      step s = .next (afterError 0x01#8 0#4 { s with inputs := rest })) ∧
    (decode cmd = .error .reserved →
      step s = .next (afterError 0x02#8 0#4 { s with inputs := rest }))

/-- With nothing on the command port the step changes nothing. The model's own choice
(notes/assumptions/1.md), after R307: no event occurs outside a command. -/
def Obligations.StepWithoutInputWaits : Prop :=
  ∀ s : State, s.inputs = [] → step s = .next s

/-- R311, R409: from every state a step answers a next state. -/
def Obligations.EveryStepCompletes : Prop := ∀ s : State, Completes s

/-- R300: the status update at the end of every command, and its one response. -/
def Obligations.EveryCommandUpdatesStatusAndResponds : Prop :=
  ∀ (s : State) (cmd : Word) (rest : List Input), s.inputs = .command cmd :: rest →
    ∃ (t : State) (c : StatusCode) (f : BitVec 4) (data : Word),
      step s = .next t ∧
      t.status.extractLsb' 0 8 = c.bits ∧
      t.status.extractLsb' 8 4 = (if c = .errFcfOverflow then f else 0#4) ∧
      t.status.extractLsb' 12 4 = 0#4 ∧
      t.status.getLsbD 16 =
        ((if cmd = 0x03000000#32 then false else s.status.getLsbD 16) || decide (c ≠ .ok)) ∧
      t.responses = s.responses ++ [⟨c.bits, if c = .ok then data else 0#32⟩] ∧
      (cmd = 0x50000000#32 → c = .ok ∧ data = (s.status &&& 0x10FFF#17).setWidth 32)

/-- R302: a command that raises changes nothing but STATUS, answers data 0, and the block goes on with
the next input. -/
def Obligations.ErrorsLeaveNoTraceButStatus : Prop :=
  ∀ (s t : State) (cmd : Word) (rest : List Input) (r : Response),
    s.inputs = .command cmd :: rest → step s = .next t → t.responses = s.responses ++ [r] →
    r.code ≠ 0x00#8 →
    r.data = 0#32 ∧
    t = { s with status := t.status, inputs := rest, responses := s.responses ++ [r] }

/-- R305: an error sets STICKY, a command other than CLR_ERR never clears it, CLR_ERR and reset do,
and CODE is the code of the command just answered. -/
def Obligations.StickyIsSetByErrorsAndClearedByClrErrOrReset : Prop :=
  (∀ (s t : State) (cmd : Word) (rest : List Input) (r : Response),
    s.inputs = .command cmd :: rest → step s = .next t → t.responses = s.responses ++ [r] →
    (r.code ≠ 0x00#8 → t.status.getLsbD 16 = true) ∧
    (s.status.getLsbD 16 = true → cmd ≠ 0x03000000#32 → t.status.getLsbD 16 = true) ∧
    (cmd = 0x03000000#32 → t.status.getLsbD 16 = false) ∧
    t.status.extractLsb' 0 8 = r.code) ∧
  ∀ (s t : State) (rest : List Input),
    (s.inputs = .reset :: rest ∨ ∃ cmd, s.inputs = .resetDuring cmd :: rest) → step s = .next t →
    t.status.getLsbD 16 = false

/-- R33, column "written by": a command that is not listed for a register leaves it unchanged. -/
def Obligations.RegistersChangeOnlyByTheirCommands : Prop :=
  ∀ (i : Instr) (s t : State), exec i s = .next t →
    (i.opcode ∉ [.crcInit, .crcByte, .crcByteS] → t.crc = s.crc) ∧
    (i.opcode ∉ [.fcfEnc, .fcfLoad] → t.fcf = s.fcf) ∧
    (i.opcode ≠ .fcfDec → t.fdec = s.fdec) ∧
    (i.opcode ≠ .cfgSpb → t.spb = s.spb) ∧
    (i.opcode ≠ .cfgSfd → t.sfd = s.sfd) ∧
    (i.opcode ≠ .build → t.flen = s.flen) ∧
    (i.opcode ≠ .padCalc → t.padn = s.padn)

/-- R70, columns "written by": only DIN_WR changes a byte of DIN and only BUILD a byte of FOUT. -/
def Obligations.MemoriesChangeOnlyByTheirCommands : Prop :=
  ∀ (i : Instr) (s t : State), exec i s = .next t →
    (i.opcode ≠ .dinWr → ∀ a, t.readByte .din a = s.readByte .din a) ∧
    (i.opcode ≠ .build → ∀ a, t.readByte .fout a = s.readByte .fout a)

/-! ## Reset -/

/-- R401: what reset leaves in every register, read through REG_RD's own view for BMOD and CAPS. -/
def Obligations.ResetGivesEveryRegisterItsResetValue : Prop :=
  ∀ (s : State) (rest : List Input), s.inputs = .reset :: rest →
    ∃ t, step s = .next t ∧
      t.status = 0#17 ∧ t.crc = 0x0000#16 ∧ t.fcf = 0x0000#16 ∧ t.fdec = 0#18 ∧ t.spb = 0x00#8 ∧
      t.sfd = 0xA7#8 ∧ t.flen = 0x00#8 ∧ t.padn = 0x00#8 ∧
      t.readReg .bmod = 0#32 ∧ t.readReg .caps = 0x10051480#32

/-- R400: reset asserted while a command executes leaves the command without effect and without a
response: the step is the reset alone. That reset leaves the inputs to come and the responses sent as
they are is the model's reading (notes/assumptions/5.md). -/
def Obligations.ResetDuringACommandDiscardsIt : Prop :=
  ∀ (s : State) (cmd : Word) (rest : List Input), s.inputs = .resetDuring cmd :: rest →
    step s = step { s with inputs := .reset :: rest } ∧
    ∃ t, step s = .next t ∧ t.responses = s.responses ∧ t.inputs = rest

/-- After a reset every byte of both memories is the free value of a new draw. The model's own form
of R402 (notes/assumptions/3.md): nothing is known of the value. -/
def Obligations.ResetDrawsBothMemoriesAnew : Prop :=
  ∀ (s : State) (rest : List Input), s.inputs = .reset :: rest →
    ∃ t, step s = .next t ∧
      ∀ sp a, t.readByte sp a = Config.resetByte sp (s.draws + 1) a

/-- R44: a byte that no command has written since the last reset reads the same until it is written:
a step that takes no reset and leaves the byte unwritten leaves its value. That an unwritten byte is
an unlisted one is the model's form (notes/assumptions/2.md, 3.md). -/
def Obligations.UnwrittenBytesKeepTheirResetContent : Prop :=
  ∀ (s t : State) (cmd : Word) (rest : List Input), s.inputs = .command cmd :: rest →
    step s = .next t → ∀ sp a, Memory.get? (t.mem sp) a = none →
      Memory.get? (s.mem sp) a = none ∧ t.readByte sp a = s.readByte sp a

/-! ## Invariants -/

/-- Every step keeps a legal state legal: memories in canonical form (the model's choice of form,
notes/assumptions/2.md) and inside their spaces (R70, R71), STATUS fields as R34 and R300 allow,
result registers in range (R37, R211, R233). -/
def Obligations.EveryStepKeepsLegalState : Prop :=
  ∀ s t : State, LegalState s → step s = .next t → LegalState t

/-- The state after reset is legal; the memories' form is the model's (notes/assumptions/2.md). -/
def Obligations.ResetStateIsLegal : Prop := LegalState State.reset

/-- R38, R45: in a legal state whose FOUT[0..FLEN-1] is a frame (or FLEN is 0), every step leaves
such a state. -/
def Obligations.EveryStepKeepsAFrameInFout : Prop :=
  ∀ s t : State, FoutHoldsFrame s → step s = .next t → FoutHoldsFrame t

/-- After reset FLEN is 0: FOUT holds no frame. -/
def Obligations.ResetStateHoldsNoFrame : Prop :=
  State.reset.flen = 0#8 ∧ FoutHoldsFrame State.reset

/-! ## Control, data movement and register access -/

/-- R250: NOP. -/
def Obligations.NopOnlyUpdatesStatus : Prop :=
  Encoding 0x00#8 0x00FFFFFF#32 (fun _ => .nop) ∧
  ∀ s : State, exec .nop s = .next (afterOk 0#32 s)

/-- R251: CFG_SPB. -/
def Obligations.CfgSpbConfiguresSamplesPerBit : Prop :=
  Encoding 0x01#8 0x00FFFF00#32 (fun cmd => .cfgSpb (cmd.extractLsb' 0 8)) ∧
  (∀ s : State, exec (.cfgSpb 0x00#8) s = .next (afterError 0x20#8 0#4 s)) ∧
  ∀ (imm8 : BitVec 8) (s : State), imm8 ≠ 0x00#8 →
    exec (.cfgSpb imm8) s =
      .next (afterOk (BitVec.ofNat 32 (Nat.lcm 16 imm8.toNat / imm8.toNat)) { s with spb := imm8 })

/-- R252: CFG_SFD. -/
def Obligations.CfgSfdSetsTheDelimiter : Prop :=
  Encoding 0x02#8 0x00FFFF00#32 (fun cmd => .cfgSfd (cmd.extractLsb' 0 8)) ∧
  ∀ (imm8 : BitVec 8) (s : State),
    exec (.cfgSfd imm8) s = .next (afterOk (imm8.setWidth 32) { s with sfd := imm8 })

/-- R253: CLR_ERR leaves STATUS 0. -/
def Obligations.ClrErrClearsSticky : Prop :=
  Encoding 0x03#8 0x00FFFFFF#32 (fun _ => .clrErr) ∧
  ∀ s : State,
    exec .clrErr s =
      .next { s with status := 0#17, responses := s.responses ++ [⟨0x00#8, 0#32⟩] }

/-- R254: DIN_WR stores to the one byte at `addr8` and changes no other byte and no register. -/
def Obligations.DinWrWritesOneByte : Prop :=
  Encoding 0x40#8 0x00FF0000#32
    (fun cmd => .dinWr (cmd.extractLsb' 8 8) (cmd.extractLsb' 0 8)) ∧
  ∀ (addr8 data8 : BitVec 8) (s : State), ∃ t,
    exec (.dinWr addr8 data8) s = .next t ∧
    t.readByte .din addr8.toNat = data8 ∧
    (∀ a, a ≠ addr8.toNat → t.readByte .din a = s.readByte .din a) ∧
    (∀ a, t.readByte .fout a = s.readByte .fout a) ∧
    { t with din := s.din } = afterOk 0#32 s

/-- R255: DIN_RD. -/
def Obligations.DinRdReadsOneByte : Prop :=
  Encoding 0x41#8 0x00FFFF00#32 (fun cmd => .dinRd (cmd.extractLsb' 0 8)) ∧
  ∀ (imm8 : BitVec 8) (s : State),
    exec (.dinRd imm8) s = .next (afterOk ((s.readByte .din imm8.toNat).setWidth 32) s)

/-- R256: FOUT_RD, at or beyond FLEN too. -/
def Obligations.FoutRdReadsOneByte : Prop :=
  Encoding 0x42#8 0x00FFFF00#32 (fun cmd => .foutRd (cmd.extractLsb' 0 8)) ∧
  ∀ (imm8 : BitVec 8) (s : State),
    exec (.foutRd imm8) s = .next (afterOk ((s.readByte .fout imm8.toNat).setWidth 32) s)

/-- R257: REG_RD of each regno; STATUS as the previous command left it, its reserved bits read 0. -/
def Obligations.RegRdReadsEveryRegister : Prop :=
  Encoding 0x50#8 0x00FFFF00#32 (fun cmd => .regRd (cmd.extractLsb' 0 8)) ∧
  ∀ s : State,
    exec (.regRd 0x00#8) s = .next (afterOk ((s.status &&& 0x10FFF#17).setWidth 32) s) ∧
    exec (.regRd 0x01#8) s = .next (afterOk (s.crc.setWidth 32) s) ∧
    exec (.regRd 0x02#8) s = .next (afterOk (s.fcf.setWidth 32) s) ∧
    exec (.regRd 0x03#8) s = .next (afterOk (s.fdec.setWidth 32) s) ∧
    exec (.regRd 0x04#8) s = .next (afterOk (s.spb.setWidth 32) s) ∧
    exec (.regRd 0x05#8) s = .next (afterOk (s.sfd.setWidth 32) s) ∧
    exec (.regRd 0x06#8) s = .next (afterOk (s.flen.setWidth 32) s) ∧
    exec (.regRd 0x07#8) s = .next (afterOk (s.padn.setWidth 32) s) ∧
    (s.spb = 0#8 → exec (.regRd 0x08#8) s = .next (afterOk 0#32 s)) ∧
    (s.spb ≠ 0#8 → exec (.regRd 0x08#8) s =
      .next (afterOk (BitVec.ofNat 32 (Nat.lcm 16 s.spb.toNat / s.spb.toNat)) s)) ∧
    exec (.regRd 0x09#8) s = .next (afterOk 0x10051480#32 s) ∧
    ∀ n : BitVec 8, 0x0A ≤ n.toNat → exec (.regRd n) s = .next (afterError 0x03#8 0#4 s)

/-! ## The CRC engine -/

/-- R147: CRC_INIT. -/
def Obligations.CrcInitLoadsTheSeed : Prop :=
  Encoding 0x10#8 0x00FF0000#32 (fun cmd => .crcInit (cmd.extractLsb' 0 16)) ∧
  ∀ (imm16 : BitVec 16) (s : State),
    exec (.crcInit imm16) s = .next (afterOk (imm16.setWidth 32) { s with crc := imm16 })

/-- R148: CRC_BYTE, with the byte step of R143 written out. -/
def Obligations.CrcByteStepsThroughTheTable : Prop :=
  Encoding 0x11#8 0x00FFFF00#32 (fun cmd => .crcByte (cmd.extractLsb' 0 8)) ∧
  ∀ (imm8 : BitVec 8) (s : State),
    let v := crcTable (imm8 ^^^ s.crc.extractLsb' 0 8) ^^^ (s.crc >>> 8)
    exec (.crcByte imm8) s = .next (afterOk (v.setWidth 32) { s with crc := v })

/-- R149: CRC_BYTE_S, and that it does what CRC_BYTE does with the same byte in every state. -/
def Obligations.CrcByteSEqualsCrcByte : Prop :=
  Encoding 0x12#8 0x00FFFF00#32 (fun cmd => .crcByteS (cmd.extractLsb' 0 8)) ∧
  ∀ (imm8 : BitVec 8) (s : State),
    let v := crcStepSerial s.crc imm8
    exec (.crcByteS imm8) s = .next (afterOk (v.setWidth 32) { s with crc := v }) ∧
    exec (.crcByteS imm8) s = exec (.crcByte imm8) s

/-- R150: CRCT_RD. -/
def Obligations.CrctRdReadsOneTableEntry : Prop :=
  Encoding 0x13#8 0x00FFFF00#32 (fun cmd => .crctRd (cmd.extractLsb' 0 8)) ∧
  ∀ (imm8 : BitVec 8) (s : State),
    exec (.crctRd imm8) s = .next (afterOk ((crcTable imm8).setWidth 32) s)

/-- spec/95_test_vectors.md section 2.1: the table is linear, and its entries at the eight powers of
two are as listed there. Together they fix all 256 entries. -/
def Obligations.CrcTableIsLinearWithListedGenerators : Prop :=
  (∀ a b : Byte, crcTable (a ^^^ b) = crcTable a ^^^ crcTable b) ∧
  crcTable 0x01#8 = 0x1189#16 ∧ crcTable 0x02#8 = 0x2312#16 ∧ crcTable 0x04#8 = 0x4624#16 ∧
  crcTable 0x08#8 = 0x8C48#16 ∧ crcTable 0x10#8 = 0x1081#16 ∧ crcTable 0x20#8 = 0x2102#16 ∧
  crcTable 0x40#8 = 0x4204#16 ∧ crcTable 0x80#8 = 0x8408#16

/-- R146: the two datapaths agree, so any mix of their steps computes crc16; the table is the serial
step from 0, and the serial step is linear in the pair (v, b). -/
def Obligations.SerialAndTableDatapathsAgree : Prop :=
  (∀ (v : BitVec 16) (b : Byte), crcStepSerial v b = crcStep v b) ∧
  (∀ (steps : List (Bool × Byte)) (seed : BitVec 16),
    steps.foldl (fun v p => if p.1 then crcStepSerial v p.2 else crcStep v p.2) seed =
      crc16 (steps.map Prod.snd) seed) ∧
  (∀ i : Byte, crcTable i = crcStepSerial 0#16 i) ∧
  ∀ (v v' : BitVec 16) (b b' : Byte),
    crcStepSerial (v ^^^ v') (b ^^^ b') = crcStepSerial v b ^^^ crcStepSerial v' b'

/-- R146 on the machine: any mix of CRC_BYTE and CRC_BYTE_S commands completes and leaves in CRC
the crc16 of the bytes, with CRC's old value as the seed. -/
def Obligations.MixedCrcCommandsComputeCrc16 : Prop :=
  ∀ (steps : List (Bool × Byte)) (s : State), ∃ t,
    execAll (steps.map fun p => if p.1 then .crcByteS p.2 else .crcByte p.2) s = .next t ∧
    t.crc = crc16 (steps.map Prod.snd) s.crc

/-- R152: the augmented reference form equals crc16 with seed 0. -/
def Obligations.AugmentedFormEqualsCrc16 : Prop :=
  ∀ s : List Byte, crc16Aug s = crc16 s 0#16

/-- R153: the check value of "123456789" and its checksum bytes. -/
def Obligations.CheckValueIs2189 : Prop :=
  let s := [0x31#8, 0x32#8, 0x33#8, 0x34#8, 0x35#8, 0x36#8, 0x37#8, 0x38#8, 0x39#8]
  crc16 s 0#16 = 0x2189#16 ∧ checksumBytes (crc16 s 0#16) = [0x21#8, 0x89#8]

/-- R154: appending the CRC least significant byte first brings the register to zero; the frame of
spec/95_test_vectors.md section 5.1, MPDU then FCS, gives 0xE6DC. -/
def Obligations.AppendingTheCrcLowByteFirstGivesZero : Prop :=
  (∀ (s : List Byte) (v0 : BitVec 16),
    crc16 (s ++ [(crc16 s v0).extractLsb' 0 8, (crc16 s v0).extractLsb' 8 8]) v0 = 0#16) ∧
  crc16 [0x01#8, 0x88#8, 0x01#8, 0xFF#8, 0xFF#8, 0xFF#8, 0xFF#8, 0xFF#8, 0xFF#8, 0xFF#8, 0xFF#8,
    0x00#8, 0x20#8, 0x01#8, 0x2A#8, 0xC7#8, 0xDB#8] 0#16 = 0xE6DC#16

/-! ## The frame control field -/

/-- R174, legal operands: FCF takes each sub-field at its position and 0 in every reserved bit. -/
def Obligations.FcfEncPacksLegalFields : Prop :=
  Encoding 0x20#8 0x00FC0000#32 (fun cmd =>
    .fcfEnc (cmd.extractLsb' 0 4) (cmd.extractLsb' 4 2) (cmd.extractLsb' 6 2)
      (cmd.extractLsb' 8 2) (cmd.extractLsb' 10 2) (cmd.extractLsb' 12 3)
      (cmd.extractLsb' 15 3)) ∧
  ∀ (ft : BitVec 4) (se fp ar pc : BitVec 2) (dam sam : BitVec 3) (s : State),
    ft.toNat ≤ 7 → se.toNat ≤ 1 → fp.toNat ≤ 1 → ar.toNat ≤ 1 → pc.toNat ≤ 1 → dam.toNat ≤ 3 →
    sam.toNat ≤ 3 →
    let v : BitVec 16 :=
      sam.setWidth 2 ++ 0#2 ++ dam.setWidth 2 ++ 0#3 ++ pc.setWidth 1 ++ ar.setWidth 1 ++
        fp.setWidth 1 ++ se.setWidth 1 ++ ft.setWidth 3
    exec (.fcfEnc ft se fp ar pc dam sam) s = .next (afterOk (v.setWidth 32) { s with fcf := v })

/-- R171, R174, an operand above its maximum: ERR_FCF_OVERFLOW with the lowest failing index, and
nothing else changes. -/
def Obligations.FcfEncNamesTheFirstOverflow : Prop :=
  ∀ (ft : BitVec 4) (se fp ar pc : BitVec 2) (dam sam : BitVec 3) (s : State),
    let out := exec (.fcfEnc ft se fp ar pc dam sam) s
    (7 < ft.toNat → out = .next (afterError 0x13#8 1#4 s)) ∧
    (ft.toNat ≤ 7 → 1 < se.toNat → out = .next (afterError 0x13#8 2#4 s)) ∧
    (ft.toNat ≤ 7 → se.toNat ≤ 1 → 1 < fp.toNat → out = .next (afterError 0x13#8 3#4 s)) ∧
    (ft.toNat ≤ 7 → se.toNat ≤ 1 → fp.toNat ≤ 1 → 1 < ar.toNat →
      out = .next (afterError 0x13#8 4#4 s)) ∧
    (ft.toNat ≤ 7 → se.toNat ≤ 1 → fp.toNat ≤ 1 → ar.toNat ≤ 1 → 1 < pc.toNat →
      out = .next (afterError 0x13#8 5#4 s)) ∧
    (ft.toNat ≤ 7 → se.toNat ≤ 1 → fp.toNat ≤ 1 → ar.toNat ≤ 1 → pc.toNat ≤ 1 → 3 < dam.toNat →
      out = .next (afterError 0x13#8 6#4 s)) ∧
    (ft.toNat ≤ 7 → se.toNat ≤ 1 → fp.toNat ≤ 1 → ar.toNat ≤ 1 → pc.toNat ≤ 1 → dam.toNat ≤ 3 →
      3 < sam.toNat → out = .next (afterError 0x13#8 7#4 s))

/-- R175: FCF_LOAD. -/
def Obligations.FcfLoadLoadsTheRawFcf : Prop :=
  Encoding 0x21#8 0x00FF0000#32 (fun cmd => .fcfLoad (cmd.extractLsb' 0 16)) ∧
  ∀ (imm16 : BitVec 16) (s : State),
    exec (.fcfLoad imm16) s = .next (afterOk (imm16.setWidth 32) { s with fcf := imm16 })

/-- R176: FCF_DEC spreads the sub-fields over the operand layout of FCF_ENC, and 0x20000000 with FDEC
is an FCF_ENC word that succeeds and gives FCF back without its reserved bits. -/
def Obligations.FcfDecUnpacksForReEncoding : Prop :=
  Encoding 0x22#8 0x00FFFFFF#32 (fun _ => .fcfDec) ∧
  ∀ s : State,
    let f := s.fcf
    let w : BitVec 18 :=
      0#1 ++ f.extractLsb' 14 2 ++ 0#1 ++ f.extractLsb' 10 2 ++ 0#1 ++ f.extractLsb' 6 1 ++
        0#1 ++ f.extractLsb' 5 1 ++ 0#1 ++ f.extractLsb' 4 1 ++ 0#1 ++ f.extractLsb' 3 1 ++
        0#1 ++ f.extractLsb' 0 3
    exec .fcfDec s = .next (afterOk (w.setWidth 32) { s with fdec := w }) ∧
    ∀ u : State,
      execWord (0x20000000#32 ||| w.setWidth 32) u =
        .next (afterOk ((f &&& 0xCC7F#16).setWidth 32) { u with fcf := f &&& 0xCC7F#16 })

/-- R177: the round trips of encode_fcf and decode_fcf; encode_fcf is injective where it succeeds and
raises on every out-of-range value. -/
def Obligations.FcfCodecRoundTrips : Prop :=
  (∀ f : FcfFields, f.ft ≤ 7 → f.se ≤ 1 → f.fp ≤ 1 → f.ar ≤ 1 → f.pc ≤ 1 → f.dam ≤ 3 → f.sam ≤ 3 →
    ∃ v, encodeFcf f = .ok v ∧ decodeFcf v = f) ∧
  (∀ v : BitVec 16, encodeFcf (decodeFcf v) = .ok (v &&& 0xCC7F#16)) ∧
  (∀ (f g : FcfFields) (v : BitVec 16), encodeFcf f = .ok v → encodeFcf g = .ok v → f = g) ∧
  ∀ f : FcfFields,
    7 < f.ft ∨ 1 < f.se ∨ 1 < f.fp ∨ 1 < f.ar ∨ 1 < f.pc ∨ 3 < f.dam ∨ 3 < f.sam →
    ∃ index, encodeFcf f = .error index

/-! ## The padding calculator -/

/-- R233: PAD_CALC, with the functions of R230 and R231 written out. -/
def Obligations.PadCalcComputesThePadding : Prop :=
  Encoding 0x38#8 0x00FF0000#32 (fun cmd => .padCalc (cmd.extractLsb' 0 16)) ∧
  ∀ (imm16 : BitVec 16) (s : State),
    let m := Nat.lcm 16 s.spb.toNat / s.spb.toNat
    let n := if imm16.toNat % m = 0 then 0 else m - imm16.toNat % m
    (s.spb = 0#8 → exec (.padCalc imm16) s = .next (afterError 0x20#8 0#4 s)) ∧
    (s.spb ≠ 0#8 → n < 16 ∧
      exec (.padCalc imm16) s =
        .next (afterOk (BitVec.ofNat 32 n) { s with padn := BitVec.ofNat 8 n }))

/-- R235: byte_modulus depends only on gcd(16, spb). -/
def Obligations.ByteModulusDependsOnlyOnTheGcd : Prop :=
  ∀ spb : Nat, 0 < spb →
    (Nat.gcd 16 spb = 1 ∧ byteModulus spb = 16) ∨ (Nat.gcd 16 spb = 2 ∧ byteModulus spb = 8) ∨
    (Nat.gcd 16 spb = 4 ∧ byteModulus spb = 4) ∨ (Nat.gcd 16 spb = 8 ∧ byteModulus spb = 2) ∨
    (Nat.gcd 16 spb = 16 ∧ byteModulus spb = 1)

/-- R232: the alignment guarantee. -/
def Obligations.PaddingAlignsToTransportBlocks : Prop :=
  ∀ len spb : Nat, 0 < spb →
    (len + paddingBytes len spb) % byteModulus spb = 0 ∧
    (∀ n, (len + n) % byteModulus spb = 0 → paddingBytes len spb ≤ n) ∧
    8 * (len + paddingBytes len spb) * spb % 128 = 0

/-! ## The frame assembler -/

/-- R206, R304: BUILD's checks in their order; the first that fails is reported and nothing else
changes. -/
def Obligations.BuildReportsTheFirstFailingCheck : Prop :=
  ∀ (w : BitVec 8) (v : BitVec 5) (pad : BitVec 1) (seq : BitVec 9) (s : State),
    let out := exec (.build w v pad seq) s
    (255 < seq.toNat → out = .next (afterError 0x10#8 0#4 s)) ∧
    (seq.toNat ≤ 255 → 20 < v.toNat → out = .next (afterError 0x11#8 0#4 s)) ∧
    (seq.toNat ≤ 255 → v.toNat ≤ 20 → 123 - v.toNat < w.toNat →
      out = .next (afterError 0x12#8 0#4 s)) ∧
    (seq.toNat ≤ 255 → v.toNat ≤ 20 → w.toNat ≤ 123 - v.toNat → pad = 1#1 → s.spb = 0#8 →
      out = .next (afterError 0x20#8 0#4 s))

/-- R206, R208, inputs that pass the checks: BUILD stores the frame function's bytes at FOUT[0..],
sets FLEN to their number and answers it; every other byte and register stays. -/
def Obligations.BuildStoresTheFrame : Prop :=
  Encoding 0x30#8 0x00800000#32 (fun cmd =>
    .build (cmd.extractLsb' 0 8) (cmd.extractLsb' 8 5) (cmd.extractLsb' 13 1)
      (cmd.extractLsb' 14 9)) ∧
  ∀ (w : BitVec 8) (v : BitVec 5) (pad : BitVec 1) (seq : BitVec 9) (s : State),
    LegalBuild w v pad seq s.spb →
    let f := frame s.fcf (seq.setWidth 8) (s.readBytes .din 0 v.toNat)
      (s.readBytes .din v.toNat w.toNat) pad s.spb.toNat s.sfd
    ∃ t, exec (.build w v pad seq) s = .next t ∧
      t.flen.toNat = f.length ∧
      (∀ a, a < f.length → f[a]? = some (t.readByte .fout a)) ∧
      (∀ a, f.length ≤ a → t.readByte .fout a = s.readByte .fout a) ∧
      (∀ a, t.readByte .din a = s.readByte .din a) ∧
      { t with fout := s.fout } = afterOk (BitVec.ofNat 32 f.length) { s with flen := t.flen }

/-- R209: the byte offsets of the frame in FOUT, field by field, read back after BUILD. -/
def Obligations.FrameLayoutInFout : Prop :=
  ∀ (w : BitVec 8) (v : BitVec 5) (pad : BitVec 1) (seq : BitVec 9) (s : State),
    LegalBuild w v pad seq s.spb →
    let L := 11 + v.toNat + w.toNat
    let n := if L % byteModulus s.spb.toNat = 0 then 0
      else byteModulus s.spb.toNat - L % byteModulus s.spb.toNat
    ∃ t, exec (.build w v pad seq) s = .next t ∧
      (∀ a, a < 4 → t.readByte .fout a = 0x00#8) ∧
      t.readByte .fout 4 = s.sfd ∧
      (t.readByte .fout 5).toNat = 5 + v.toNat + w.toNat ∧
      t.readByte .fout 6 = s.fcf.extractLsb' 0 8 ∧
      t.readByte .fout 7 = s.fcf.extractLsb' 8 8 ∧
      (t.readByte .fout 8).toNat = seq.toNat ∧
      (∀ i, i < v.toNat → t.readByte .fout (9 + i) = s.readByte .din i) ∧
      (∀ i, i < w.toNat →
        t.readByte .fout (9 + v.toNat + i) = s.readByte .din (v.toNat + i)) ∧
      (let c := crc16 (t.readBytes .fout 6 (3 + v.toNat + w.toNat)) 0#16
       t.readByte .fout (9 + v.toNat + w.toNat) = c.extractLsb' 8 8 ∧
       t.readByte .fout (10 + v.toNat + w.toNat) = c.extractLsb' 0 8) ∧
      (pad = 0#1 → t.flen.toNat = L) ∧
      (pad = 1#1 → t.flen.toNat = L + n + 5 ∧
        ∀ a, L ≤ a → a < L + n + 5 → t.readByte .fout a = 0x00#8)

/-- R210, R211: FLEN after BUILD, and its bounds. -/
def Obligations.FrameLengthsAndBounds : Prop :=
  ∀ (w : BitVec 8) (v : BitVec 5) (pad : BitVec 1) (seq : BitVec 9) (s : State),
    LegalBuild w v pad seq s.spb →
    let L := 11 + v.toNat + w.toNat
    let m := byteModulus s.spb.toNat
    ∃ t, exec (.build w v pad seq) s = .next t ∧
      (pad = 0#1 → t.flen.toNat = L ∧ 11 ≤ t.flen.toNat ∧ t.flen.toNat ≤ 134) ∧
      (pad = 1#1 → ∃ n, n = paddingBytes L s.spb.toNat ∧ n < m ∧ t.flen.toNat = L + n + 5 ∧
        (L + n) % m = 0 ∧ t.flen.toNat % m = 5 % m) ∧
      v.toNat + w.toNat ≤ 123 ∧ (t.readByte .fout 5).toNat ≤ 128 ∧ t.flen.toNat ≤ 149

/-- R212: a frame built with pad = 0 can be taken apart again by one who knows V. The frame does not
record V: other lengths with the same sum, over the same DIN, leave the very same state. -/
def Obligations.UnpaddedFrameParsesBack : Prop :=
  ∀ (w : BitVec 8) (v : BitVec 5) (seq : BitVec 9) (s : State),
    LegalBuild w v 0#1 seq s.spb →
    ∃ t, exec (.build w v 0#1 seq) s = .next t ∧
      let F := fun a => t.readByte .fout a
      let V := v.toNat
      let W := (F 5).toNat - 5 - V
      s.fcf = (F 6).setWidth 16 ||| (F 7).setWidth 16 <<< 8 ∧
      seq = (F 8).setWidth 9 ∧
      W = w.toNat ∧
      s.readBytes .din 0 V = t.readBytes .fout 9 V ∧
      s.readBytes .din V W = t.readBytes .fout (9 + V) ((F 5).toNat + 3 + 1 - (9 + V)) ∧
      (F (9 + V + W)).setWidth 16 <<< 8 ||| (F (10 + V + W)).setWidth 16 =
        crc16 (t.readBytes .fout 6 (8 + V + W + 1 - 6)) 0#16 ∧
      ∀ (w' : BitVec 8) (v' : BitVec 5), v'.toNat ≤ 20 →
        v'.toNat + w'.toNat = v.toNat + w.toNat → exec (.build w' v' 0#1 seq) s = .next t

/-- R207: BUILD neither reads nor writes register CRC: with another value in CRC it does the same and
leaves that value. -/
def Obligations.BuildNeitherReadsNorWritesCrc : Prop :=
  ∀ (w : BitVec 8) (v : BitVec 5) (pad : BitVec 1) (seq : BitVec 9) (s : State) (c : BitVec 16),
    ∃ t, exec (.build w v pad seq) s = .next t ∧ t.crc = s.crc ∧
      exec (.build w v pad seq) { s with crc := c } = .next { t with crc := c }

/-- R80: the frame depends only on DIN, FCF, SFD and SPB: two states that agree on what BUILD reads
get the same FLEN, the same frame bytes and the same response. -/
def Obligations.FrameDependsOnlyOnTheBuildInputs : Prop :=
  ∀ (w : BitVec 8) (v : BitVec 5) (pad : BitVec 1) (seq : BitVec 9) (s s' : State),
    LegalBuild w v pad seq s.spb → SameBuildInputs v.toNat w.toNat s s' →
    ∃ t t' r, exec (.build w v pad seq) s = .next t ∧ exec (.build w v pad seq) s' = .next t' ∧
      t.flen = t'.flen ∧ t.responses = s.responses ++ [r] ∧ t'.responses = s'.responses ++ [r] ∧
      ∀ a, a < t.flen.toNat → t.readByte .fout a = t'.readByte .fout a

/-! ## The assembler -/

/-- R112: the assembler makes of a command's own line that command and nothing else. -/
def Obligations.AssemblerGivesTheCommandOfItsLine : Prop :=
  ∀ i : Instr, assemble i.toAsm = some [i]

/-- R113, CRC16: the assembled commands complete and leave crc16(bytes, seed) in CRC. That a line
with a seed and no bytes is accepted, and is CRC_INIT alone, is the model's choice
(notes/assumptions/13.md). -/
def Obligations.Crc16PseudoCommandComputesTheCrc : Prop :=
  ∀ (seed : Nat) (bs : List Nat) (s : State), seed < 65536 → (∀ b ∈ bs, b < 256) →
    ∃ is t, assemble (.crc16 seed bs) = some is ∧ execAll is s = .next t ∧
      t.crc = crc16 (bs.map (BitVec.ofNat 8)) (BitVec.ofNat 16 seed)

/-- R113, DIN_LOAD: the assembled commands complete and leave the bytes at rising addresses from `a`,
and every other byte of DIN as it was. That a line with no bytes is accepted, and stands for no
command, is the model's choice (notes/assumptions/13.md). -/
def Obligations.DinLoadPseudoCommandLoadsTheBytes : Prop :=
  ∀ (a : Nat) (bs : List Nat) (s : State), a < 256 → (∀ b ∈ bs, b < 256) → a + bs.length ≤ 256 →
    ∃ is t, assemble (.dinLoad a bs) = some is ∧ execAll is s = .next t ∧
      (∀ i b, bs[i]? = some b → (t.readByte .din (a + i)).toNat = b) ∧
      ∀ k, (k < a ∨ a + bs.length ≤ k) → t.readByte .din k = s.readByte .din k

/-! ## The state is the tuple of R47 -/

/-- R47, R46: the tuple is the whole state of the block. Two states that agree on it, whatever the
model's own fields hold and whichever bytes the memories list, agree on it after every command and
give the same response, and no command changes the draw or the inputs to come. That State has such
fields beside the tuple is the model's choice (notes/assumptions/17.md). -/
def Obligations.CommandsDependOnlyOnTheTuple : Prop :=
  ∀ (i : Instr) (s s' : State), SameTuple s s' →
    ∃ t t' r, exec i s = .next t ∧ exec i s' = .next t' ∧ SameTuple t t' ∧
      t.responses = s.responses ++ [r] ∧ t'.responses = s'.responses ++ [r] ∧
      t.draws = s.draws ∧ t.inputs = s.inputs

/-- R75: a DIN_WR of the byte already there leaves the tuple as it was, but for the status update of
R300: which bytes were written is no state of the block (notes/assumptions/2.md). -/
def Obligations.WritingTheStoredByteKeepsTheTuple : Prop :=
  ∀ (addr8 : BitVec 8) (s : State),
    ∃ t, exec (.dinWr addr8 (s.readByte .din addr8.toNat)) s = .next t ∧
      SameTuple t { s with status := s.status &&& 0x10000#17 }

/-- R47: the machine runs the block on its tuple. A step that takes a command word ends in the tuple,
and sends the response, that `Tuple.command` gives for the tuple it started from; a step that takes a
reset ends in the reset tuple with both memories drawn anew. The list of inputs, the list of responses
and the draw are the model's own (notes/assumptions/1.md, 3.md, 4.md, 17.md). -/
def Obligations.StepRunsTheBlockOnItsTuple : Prop :=
  (∀ x : Tuple, x.toState.tuple = x) ∧
  (∀ (s : State) (cmd : Word) (rest : List Input), s.inputs = .command cmd :: rest →
    ∃ t r, step s = .next t ∧ s.tuple.command cmd = .next (t.tuple, r) ∧
      t.responses = s.responses ++ [r]) ∧
  ∀ (s : State) (rest : List Input),
    (s.inputs = .reset :: rest ∨ ∃ cmd, s.inputs = .resetDuring cmd :: rest) →
    ∃ t, step s = .next t ∧ t.responses = s.responses ∧
      t.tuple = Tuple.reset (Vector.ofFn fun a => Config.resetByte .din (s.draws + 1) a)
        (Vector.ofFn fun a => Config.resetByte .fout (s.draws + 1) a)
end

