-- ==== Sys2Proof/Laws/Decode.lean ====
section
/-! SUPPORT. What the decoder can do, said once. -/

namespace Sys2Proof

/-- The type of a command word has CMD_WIDTH bits, and that of response data RESP_DATA_WIDTH
(spec/00_scope.md R6). -/
theorem word_widths : Word = BitVec Config.cmdWidth ∧ Word = BitVec Config.respDataWidth := ⟨rfl, rfl⟩

/-- The opcode found for a number has that number. -/
theorem opcodeOf_eq_some (n : BitVec 8) (op : Opcode) (h : opcodeOf n = some op) : op.code = n := by
  simpa using List.find?_some h

/-- Every opcode is found under its number. -/
@[simp] theorem opcodeOf_code (op : Opcode) : opcodeOf op.code = some op := by
  cases op <;> rfl

@[simp] theorem opcode_operands (op : Opcode) (cmd : BitVec 32) :
    (op.operands cmd).opcode = op := by cases op <;> rfl

/-- Everything a successful decoding says of the word. -/
theorem decode_eq_ok (cmd : BitVec 32) (i : Instr) (h : decode cmd = .ok i) :
    ∃ op : Opcode, cmd.extractLsb' 24 8 = op.code ∧ cmd &&& reservedMask op.format = 0#32 ∧
      i = op.operands cmd := by
  unfold decode at h
  split at h
  · cases h
  · rename_i op ho
    split at h
    · exact ⟨op, (opcodeOf_eq_some _ _ ho).symm, ‹_›, by injection h with h; exact h.symm⟩
    · cases h

/-- A word with an opcode's number and no reserved bit is that opcode's command. -/
theorem decode_of_fields (cmd : BitVec 32) (op : Opcode) (h : cmd.extractLsb' 24 8 = op.code)
    (hr : cmd &&& reservedMask op.format = 0#32) : decode cmd = .ok (op.operands cmd) := by
  simp [decode, opcField, h, hr]

/-- A word with an opcode's number and a reserved bit is refused for that bit. -/
theorem decode_of_reserved (cmd : BitVec 32) (op : Opcode) (h : cmd.extractLsb' 24 8 = op.code)
    (hr : cmd &&& reservedMask op.format ≠ 0#32) : decode cmd = .error .reserved := by
  simp [decode, opcField, h, hr]

end Sys2Proof
end

