-- ==== Sys2Proof/Laws/Flags.lean ====
section
/-! SUPPORT. What the STATUS operations give, field by field and as bit masks. -/

namespace Sys2Proof.Machine

@[simp] theorem statusCode_packStatus (b : Bool) (f : BitVec 4) (c : BitVec 8) :
    statusCode (packStatus b f c) = c := by
  ext i hi
  simp only [statusCode, packStatus, BitVec.getElem_extractLsb', BitVec.getLsbD_append]
  simp [hi]

@[simp] theorem statusField_packStatus (b : Bool) (f : BitVec 4) (c : BitVec 8) :
    statusField (packStatus b f c) = f := by
  ext i hi
  simp only [statusField, packStatus, BitVec.getElem_extractLsb', BitVec.getLsbD_append]
  simp [hi]

@[simp] theorem statusSticky_packStatus (b : Bool) (f : BitVec 4) (c : BitVec 8) :
    statusSticky (packStatus b f c) = b := by
  simp only [statusSticky, packStatus, BitVec.getLsbD_append]
  simp

/-- The reserved bits 15:12 of a packed STATUS are 0. -/
theorem packStatus_reserved (b : Bool) (f : BitVec 4) (c : BitVec 8) :
    (packStatus b f c).extractLsb' 12 4 = 0#4 := by
  ext i hi
  simp only [packStatus, BitVec.getElem_extractLsb', BitVec.getLsbD_append]
  have h1 : ¬ 12 + i < 8 := by omega
  have h2 : ¬ 12 + i - 8 < 4 := by omega
  have h3 : 12 + i - 8 - 4 < 4 := by omega
  simp [h1, h2, h3]

@[simp] theorem statusCode_statusAfter (st : BitVec 17) (c : StatusCode) (f : BitVec 4) :
    statusCode (statusAfter st c f) = c.bits := by simp [statusAfter]

@[simp] theorem statusField_statusAfter (st : BitVec 17) (c : StatusCode) (f : BitVec 4) :
    statusField (statusAfter st c f) = if c = .errFcfOverflow then f else 0#4 := by
  simp [statusAfter]

@[simp] theorem statusSticky_statusAfter (st : BitVec 17) (c : StatusCode) (f : BitVec 4) :
    statusSticky (statusAfter st c f) = (statusSticky st || decide (c ≠ .ok)) := by
  simp [statusAfter]

/-- After a command that completes, only STICKY is left of the old STATUS. -/
theorem statusAfter_ok (st : BitVec 17) (f : BitVec 4) :
    statusAfter st .ok f = st &&& 0x10000#17 := by
  have h : st &&& 0x10000#17 = BitVec.ofBool (st.getLsbD 16) ++ 0#16 := by
    ext i hi
    simp only [← BitVec.getLsbD_eq_getElem, BitVec.getLsbD_append]
    interval_cases i <;> simp
  rw [h]
  simp only [statusAfter, statusSticky, packStatus, StatusCode.bits]
  rw [if_neg (by decide : ¬ StatusCode.ok = .errFcfOverflow)]
  cases st.getLsbD 16 <;> decide

/-- After a command that raises, STATUS is the code, the field and STICKY. -/
theorem statusAfter_error (st : BitVec 17) (c : StatusCode) (f : BitVec 4) (h : c ≠ .ok) :
    statusAfter st c f =
      1#1 ++ 0#4 ++ (if c = .errFcfOverflow then f else 0#4) ++ c.bits := by
  simp [statusAfter, packStatus, h]

/-- The nine codes have nine numbers. -/
theorem StatusCode.bits_injective (c d : StatusCode) (h : c.bits = d.bits) : c = d := by
  cases c <;> cases d <;> first | rfl | (exact absurd h (by decide))

end Sys2Proof.Machine
end

