-- ==== Sys2Proof/Laws/State.lean ====
section
/-! SUPPORT. One lemma per field per update of State, each true by rfl. -/

namespace Sys2Proof.Machine

@[simp] theorem finish_status (c : StatusCode) (i : BitVec 4) (d : Word) (s : State) :
    (finish c i d s).status = statusAfter s.status c i := rfl
@[simp] theorem finish_crc (c : StatusCode) (i : BitVec 4) (d : Word) (s : State) :
    (finish c i d s).crc = s.crc := rfl
@[simp] theorem finish_fcf (c : StatusCode) (i : BitVec 4) (d : Word) (s : State) :
    (finish c i d s).fcf = s.fcf := rfl
@[simp] theorem finish_fdec (c : StatusCode) (i : BitVec 4) (d : Word) (s : State) :
    (finish c i d s).fdec = s.fdec := rfl
@[simp] theorem finish_spb (c : StatusCode) (i : BitVec 4) (d : Word) (s : State) :
    (finish c i d s).spb = s.spb := rfl
@[simp] theorem finish_sfd (c : StatusCode) (i : BitVec 4) (d : Word) (s : State) :
    (finish c i d s).sfd = s.sfd := rfl
@[simp] theorem finish_flen (c : StatusCode) (i : BitVec 4) (d : Word) (s : State) :
    (finish c i d s).flen = s.flen := rfl
@[simp] theorem finish_padn (c : StatusCode) (i : BitVec 4) (d : Word) (s : State) :
    (finish c i d s).padn = s.padn := rfl
@[simp] theorem finish_din (c : StatusCode) (i : BitVec 4) (d : Word) (s : State) :
    (finish c i d s).din = s.din := rfl
@[simp] theorem finish_fout (c : StatusCode) (i : BitVec 4) (d : Word) (s : State) :
    (finish c i d s).fout = s.fout := rfl
@[simp] theorem finish_draws (c : StatusCode) (i : BitVec 4) (d : Word) (s : State) :
    (finish c i d s).draws = s.draws := rfl
@[simp] theorem finish_inputs (c : StatusCode) (i : BitVec 4) (d : Word) (s : State) :
    (finish c i d s).inputs = s.inputs := rfl
@[simp] theorem finish_responses (c : StatusCode) (i : BitVec 4) (d : Word) (s : State) :
    (finish c i d s).responses = s.responses ++ [⟨c.bits, if c = .ok then d else 0#32⟩] := rfl

@[simp] theorem complete_status (d : Word) (s : State) :
    (complete d s).status = statusAfter s.status .ok 0#4 := rfl
@[simp] theorem complete_crc (d : Word) (s : State) : (complete d s).crc = s.crc := rfl
@[simp] theorem complete_fcf (d : Word) (s : State) : (complete d s).fcf = s.fcf := rfl
@[simp] theorem complete_fdec (d : Word) (s : State) : (complete d s).fdec = s.fdec := rfl
@[simp] theorem complete_spb (d : Word) (s : State) : (complete d s).spb = s.spb := rfl
@[simp] theorem complete_sfd (d : Word) (s : State) : (complete d s).sfd = s.sfd := rfl
@[simp] theorem complete_flen (d : Word) (s : State) : (complete d s).flen = s.flen := rfl
@[simp] theorem complete_padn (d : Word) (s : State) : (complete d s).padn = s.padn := rfl
@[simp] theorem complete_din (d : Word) (s : State) : (complete d s).din = s.din := rfl
@[simp] theorem complete_fout (d : Word) (s : State) : (complete d s).fout = s.fout := rfl
@[simp] theorem complete_draws (d : Word) (s : State) : (complete d s).draws = s.draws := rfl
@[simp] theorem complete_inputs (d : Word) (s : State) : (complete d s).inputs = s.inputs := rfl
@[simp] theorem complete_responses (d : Word) (s : State) :
    (complete d s).responses = s.responses ++ [⟨0x00#8, d⟩] := rfl

@[simp] theorem raise_status (c : StatusCode) (i : BitVec 4) (s : State) :
    (raise c i s).status = statusAfter s.status c i := rfl
@[simp] theorem raise_crc (c : StatusCode) (i : BitVec 4) (s : State) :
    (raise c i s).crc = s.crc := rfl
@[simp] theorem raise_fcf (c : StatusCode) (i : BitVec 4) (s : State) :
    (raise c i s).fcf = s.fcf := rfl
@[simp] theorem raise_fdec (c : StatusCode) (i : BitVec 4) (s : State) :
    (raise c i s).fdec = s.fdec := rfl
@[simp] theorem raise_spb (c : StatusCode) (i : BitVec 4) (s : State) :
    (raise c i s).spb = s.spb := rfl
@[simp] theorem raise_sfd (c : StatusCode) (i : BitVec 4) (s : State) :
    (raise c i s).sfd = s.sfd := rfl
@[simp] theorem raise_flen (c : StatusCode) (i : BitVec 4) (s : State) :
    (raise c i s).flen = s.flen := rfl
@[simp] theorem raise_padn (c : StatusCode) (i : BitVec 4) (s : State) :
    (raise c i s).padn = s.padn := rfl
@[simp] theorem raise_din (c : StatusCode) (i : BitVec 4) (s : State) :
    (raise c i s).din = s.din := rfl
@[simp] theorem raise_fout (c : StatusCode) (i : BitVec 4) (s : State) :
    (raise c i s).fout = s.fout := rfl
@[simp] theorem raise_draws (c : StatusCode) (i : BitVec 4) (s : State) :
    (raise c i s).draws = s.draws := rfl
@[simp] theorem raise_inputs (c : StatusCode) (i : BitVec 4) (s : State) :
    (raise c i s).inputs = s.inputs := rfl
@[simp] theorem raise_responses (c : StatusCode) (i : BitVec 4) (s : State) :
    (raise c i s).responses = s.responses ++ [⟨c.bits, 0#32⟩] := by simp [raise]

@[simp] theorem takeReset_status (s : State) : (takeReset s).status = 0#17 := rfl
@[simp] theorem takeReset_crc (s : State) : (takeReset s).crc = 0#16 := rfl
@[simp] theorem takeReset_fcf (s : State) : (takeReset s).fcf = 0#16 := rfl
@[simp] theorem takeReset_fdec (s : State) : (takeReset s).fdec = 0#18 := rfl
@[simp] theorem takeReset_spb (s : State) : (takeReset s).spb = 0#8 := rfl
@[simp] theorem takeReset_sfd (s : State) : (takeReset s).sfd = 0xA7#8 := rfl
@[simp] theorem takeReset_flen (s : State) : (takeReset s).flen = 0#8 := rfl
@[simp] theorem takeReset_padn (s : State) : (takeReset s).padn = 0#8 := rfl
@[simp] theorem takeReset_din (s : State) : (takeReset s).din = [] := rfl
@[simp] theorem takeReset_fout (s : State) : (takeReset s).fout = [] := rfl
@[simp] theorem takeReset_draws (s : State) : (takeReset s).draws = s.draws + 1 := rfl
@[simp] theorem takeReset_inputs (s : State) : (takeReset s).inputs = s.inputs := rfl
@[simp] theorem takeReset_responses (s : State) : (takeReset s).responses = s.responses := rfl

@[simp] theorem setMem_status (sp : Space) (m : Memory) (s : State) : (s.setMem sp m).status = s.status := by
  cases sp <;> rfl
@[simp] theorem setMem_crc (sp : Space) (m : Memory) (s : State) : (s.setMem sp m).crc = s.crc := by
  cases sp <;> rfl
@[simp] theorem setMem_fcf (sp : Space) (m : Memory) (s : State) : (s.setMem sp m).fcf = s.fcf := by
  cases sp <;> rfl
@[simp] theorem setMem_fdec (sp : Space) (m : Memory) (s : State) : (s.setMem sp m).fdec = s.fdec := by
  cases sp <;> rfl
@[simp] theorem setMem_spb (sp : Space) (m : Memory) (s : State) : (s.setMem sp m).spb = s.spb := by
  cases sp <;> rfl
@[simp] theorem setMem_sfd (sp : Space) (m : Memory) (s : State) : (s.setMem sp m).sfd = s.sfd := by
  cases sp <;> rfl
@[simp] theorem setMem_flen (sp : Space) (m : Memory) (s : State) : (s.setMem sp m).flen = s.flen := by
  cases sp <;> rfl
@[simp] theorem setMem_padn (sp : Space) (m : Memory) (s : State) : (s.setMem sp m).padn = s.padn := by
  cases sp <;> rfl
@[simp] theorem setMem_din_din (m : Memory) (s : State) : (s.setMem .din m).din = m := rfl
@[simp] theorem setMem_fout_din (m : Memory) (s : State) : (s.setMem .fout m).din = s.din := rfl
@[simp] theorem setMem_fout_fout (m : Memory) (s : State) : (s.setMem .fout m).fout = m := rfl
@[simp] theorem setMem_din_fout (m : Memory) (s : State) : (s.setMem .din m).fout = s.fout := rfl
@[simp] theorem setMem_draws (sp : Space) (m : Memory) (s : State) : (s.setMem sp m).draws = s.draws := by
  cases sp <;> rfl
@[simp] theorem setMem_inputs (sp : Space) (m : Memory) (s : State) : (s.setMem sp m).inputs = s.inputs := by
  cases sp <;> rfl
@[simp] theorem setMem_responses (sp : Space) (m : Memory) (s : State) : (s.setMem sp m).responses = s.responses := by
  cases sp <;> rfl

@[simp] theorem withFetchWord_status (n w : Nat) (s : State) :
    (s.withFetchWord n w).status = s.status := rfl
@[simp] theorem withFetchWord_crc (n w : Nat) (s : State) : (s.withFetchWord n w).crc = s.crc := rfl
@[simp] theorem withFetchWord_fcf (n w : Nat) (s : State) : (s.withFetchWord n w).fcf = s.fcf := rfl
@[simp] theorem withFetchWord_fdec (n w : Nat) (s : State) :
    (s.withFetchWord n w).fdec = s.fdec := rfl
@[simp] theorem withFetchWord_spb (n w : Nat) (s : State) : (s.withFetchWord n w).spb = s.spb := rfl
@[simp] theorem withFetchWord_sfd (n w : Nat) (s : State) : (s.withFetchWord n w).sfd = s.sfd := rfl
@[simp] theorem withFetchWord_flen (n w : Nat) (s : State) :
    (s.withFetchWord n w).flen = s.flen := rfl
@[simp] theorem withFetchWord_padn (n w : Nat) (s : State) :
    (s.withFetchWord n w).padn = s.padn := rfl
@[simp] theorem withFetchWord_din (n w : Nat) (s : State) : (s.withFetchWord n w).din = s.din := rfl
@[simp] theorem withFetchWord_fout (n w : Nat) (s : State) :
    (s.withFetchWord n w).fout = s.fout := rfl
@[simp] theorem withFetchWord_draws (n w : Nat) (s : State) :
    (s.withFetchWord n w).draws = s.draws := rfl
@[simp] theorem withFetchWord_inputs (n w : Nat) (s : State) :
    (s.withFetchWord n w).inputs = .command (tableWord n w) :: s.inputs := rfl
@[simp] theorem withFetchWord_responses (n w : Nat) (s : State) :
    (s.withFetchWord n w).responses = s.responses := rfl

theorem mem_din (s : State) : s.mem .din = s.din := rfl
theorem mem_fout (s : State) : s.mem .fout = s.fout := rfl

end Sys2Proof.Machine
end

