-- ==== Sys2Proof/Laws/Memory.lean ====
section
/-! SUPPORT. Read after write, and the canonical form of a memory. -/

namespace Sys2Proof.Machine

theorem Memory.get?_nil (a : Nat) : Memory.get? [] a = none := rfl

theorem Memory.get?_write_same (m : Memory) (a : Nat) (x : Byte) :
    Memory.get? (Memory.write m a x) a = some x := by
  induction m with
  | nil => simp [Memory.write, Memory.get?]
  | cons c rest ih =>
    obtain ⟨b, v⟩ := c
    simp only [Memory.write]
    split
    · simp [Memory.get?]
    · split
      · simp [Memory.get?]
      · rename_i h1 h2
        simp [Memory.get?, h2, ih]

theorem Memory.get?_write_ne (m : Memory) (a b : Nat) (x : Byte) (h : b ≠ a) :
    Memory.get? (Memory.write m a x) b = Memory.get? m b := by
  induction m with
  | nil => simp [Memory.write, Memory.get?, h]
  | cons c rest ih =>
    obtain ⟨d, v⟩ := c
    simp only [Memory.write]
    split
    · simp [Memory.get?, h]
    · split
      · subst_vars
        simp [Memory.get?, h]
      · simp only [Memory.get?, ih]

/-- Read one byte after writing one byte. -/
theorem Memory.get?_write (m : Memory) (a b : Nat) (x : Byte) :
    Memory.get? (Memory.write m a x) b = if b = a then some x else Memory.get? m b := by
  by_cases h : b = a
  · subst h
    simp [Memory.get?_write_same]
  · simp [h, Memory.get?_write_ne]

/-- Read one byte after writing a sequence of bytes. -/
theorem Memory.get?_writeBytes (xs : List Byte) (m : Memory) (a b : Nat) :
    Memory.get? (Memory.writeBytes m a xs) b =
      if a ≤ b ∧ b < a + xs.length then xs[b - a]? else Memory.get? m b := by
  induction xs generalizing m a with
  | nil =>
    have h : ¬ (a ≤ b ∧ b < a) := by omega
    simp [Memory.writeBytes, h]
  | cons x rest ih =>
    simp only [Memory.writeBytes, ih, Memory.get?_write, List.length_cons]
    by_cases h : b = a
    · subst h
      have h1 : ¬ (b + 1 ≤ b ∧ b < b + 1 + rest.length) := by omega
      simp
    · by_cases h2 : a + 1 ≤ b ∧ b < a + 1 + rest.length
      · have h3 : a ≤ b ∧ b < a + (rest.length + 1) := by omega
        obtain ⟨k, hk⟩ : ∃ k, b = a + 1 + k := ⟨b - (a + 1), by omega⟩
        have h4 : b - a = k + 1 := by omega
        have h5 : b - (a + 1) = k := by omega
        rw [if_pos h2, if_pos h3, h4, h5]
        simp
      · have h3 : ¬ (a ≤ b ∧ b < a + (rest.length + 1)) := by omega
        simp only [if_neg h2, if_neg h3, if_neg h]

theorem Memory.risingFrom_mono (m : Memory) (lo lo' : Nat) (h : lo' ≤ lo)
    (hm : Memory.risingFrom lo m = true) : Memory.risingFrom lo' m = true := by
  cases m with
  | nil => rfl
  | cons c rest =>
    simp only [Memory.risingFrom, Bool.and_eq_true, decide_eq_true_eq] at hm ⊢
    exact ⟨by omega, hm.2⟩

theorem Memory.risingFrom_write (m : Memory) (lo a : Nat) (x : Byte) (ha : lo ≤ a)
    (hm : Memory.risingFrom lo m = true) : Memory.risingFrom lo (Memory.write m a x) = true := by
  induction m generalizing lo with
  | nil => simp [Memory.write, Memory.risingFrom, ha]
  | cons c rest ih =>
    obtain ⟨b, v⟩ := c
    simp only [Memory.risingFrom, Bool.and_eq_true, decide_eq_true_eq] at hm
    simp only [Memory.write]
    split
    · simp only [Memory.risingFrom, Bool.and_eq_true, decide_eq_true_eq]
      exact ⟨ha, by omega, hm.2⟩
    · split
      · subst_vars
        simp only [Memory.risingFrom, Bool.and_eq_true, decide_eq_true_eq]
        exact hm
      · simp only [Memory.risingFrom, Bool.and_eq_true, decide_eq_true_eq]
        exact ⟨hm.1, ih (b + 1) (by omega) hm.2⟩

theorem Memory.below_write (m : Memory) (n a : Nat) (x : Byte) (ha : a < n)
    (hm : Memory.below n m = true) : Memory.below n (Memory.write m a x) = true := by
  induction m with
  | nil => simp [Memory.write, Memory.below, ha]
  | cons c rest ih =>
    obtain ⟨b, v⟩ := c
    simp only [Memory.below, List.all_cons, Bool.and_eq_true, decide_eq_true_eq] at hm ih ⊢
    simp only [Memory.write]
    split
    · simp only [List.all_cons, Bool.and_eq_true, decide_eq_true_eq]
      exact ⟨ha, hm⟩
    · split
      · simp only [List.all_cons, Bool.and_eq_true, decide_eq_true_eq]
        exact ⟨ha, hm.2⟩
      · simp only [List.all_cons, Bool.and_eq_true, decide_eq_true_eq]
        exact ⟨hm.1, ih hm.2⟩

/-- Writing a sequence of bytes keeps the addresses rising. -/
theorem Memory.risingFrom_writeBytes (xs : List Byte) (m : Memory) (a : Nat)
    (hm : Memory.risingFrom 0 m = true) :
    Memory.risingFrom 0 (Memory.writeBytes m a xs) = true := by
  induction xs generalizing m a with
  | nil => exact hm
  | cons x rest ih => exact ih _ _ (Memory.risingFrom_write m 0 a x (Nat.zero_le a) hm)

/-- Writing a sequence of bytes below `n` keeps every listed address below `n`. -/
theorem Memory.below_writeBytes (xs : List Byte) (m : Memory) (a n : Nat)
    (ha : a + xs.length ≤ n) (hm : Memory.below n m = true) :
    Memory.below n (Memory.writeBytes m a xs) = true := by
  induction xs generalizing m a with
  | nil => exact hm
  | cons x rest ih =>
    simp only [List.length_cons] at ha
    exact ih _ _ (by omega) (Memory.below_write m n a x (by omega) hm)

/-- Every memory operation that writes keeps the canonical form. -/
theorem Memory.wf_writeBytes (sp : Space) (xs : List Byte) (m : Memory) (a : Nat)
    (ha : a + xs.length ≤ Config.memSize sp) (hm : Memory.wf sp m = true) :
    Memory.wf sp (Memory.writeBytes m a xs) = true := by
  simp only [Memory.wf, Bool.and_eq_true] at hm ⊢
  exact ⟨Memory.risingFrom_writeBytes xs m a hm.1,
    Memory.below_writeBytes xs m a _ ha hm.2⟩

theorem Memory.wf_write (sp : Space) (m : Memory) (a : Nat) (x : Byte)
    (ha : a < Config.memSize sp) (hm : Memory.wf sp m = true) :
    Memory.wf sp (Memory.write m a x) = true :=
  Memory.wf_writeBytes sp [x] m a (by simpa using ha) hm

theorem reset_memories_wf :
    Memory.wf .din State.reset.din = true ∧ Memory.wf .fout State.reset.fout = true := by decide

end Sys2Proof.Machine
end

