-- ==== Sys2Proof/Laws/Ops.lean ====
section
/-! SUPPORT. One lemma per shared operation: everything it can do. -/

namespace Sys2Proof.Machine

open Sys2Proof.Safety

/-! ## The end of a command -/

/-- A command that completes leaves what R300 says. -/
theorem complete_eq_afterOk (d : Word) (s : State) : complete d s = afterOk d s := by
  simp [complete, finish, afterOk, statusAfter_ok, StatusCode.bits]

/-- A command that raises leaves what R300 and R302 say. -/
theorem raise_eq_afterError (c : StatusCode) (f : BitVec 4) (s : State) (h : c ≠ .ok) :
    raise c f s =
      afterError c.bits (if c = .errFcfOverflow then f else 0#4) s := by
  simp [raise, finish, afterError, statusAfter_error _ _ _ h, h]

/-! ## Memory -/

/-- A read depends only on the memory of its space and on the draw. -/
theorem readByte_congr (sp : Space) (s t : State) (a : Nat) (hm : s.mem sp = t.mem sp)
    (hd : s.draws = t.draws) : s.readByte sp a = t.readByte sp a := by
  simp [State.readByte, hm, hd]

@[simp] theorem mem_finish (sp : Space) (c : StatusCode) (f : BitVec 4) (d : Word) (s : State) :
    (finish c f d s).mem sp = s.mem sp := by cases sp <;> rfl

@[simp] theorem mem_complete (sp : Space) (d : Word) (s : State) :
    (complete d s).mem sp = s.mem sp := by cases sp <;> rfl

@[simp] theorem mem_raise (sp : Space) (c : StatusCode) (f : BitVec 4) (s : State) :
    (raise c f s).mem sp = s.mem sp := by cases sp <;> rfl

@[simp] theorem readByte_finish (sp : Space) (c : StatusCode) (f : BitVec 4) (d : Word) (s : State)
    (a : Nat) : (finish c f d s).readByte sp a = s.readByte sp a :=
  readByte_congr sp _ _ a (mem_finish ..) rfl

@[simp] theorem readByte_complete (sp : Space) (d : Word) (s : State) (a : Nat) :
    (complete d s).readByte sp a = s.readByte sp a :=
  readByte_congr sp _ _ a (mem_complete ..) rfl

@[simp] theorem readByte_raise (sp : Space) (c : StatusCode) (f : BitVec 4) (s : State) (a : Nat) :
    (raise c f s).readByte sp a = s.readByte sp a :=
  readByte_congr sp _ _ a (mem_raise ..) rfl

@[simp] theorem mem_setMem_same (sp : Space) (m : Memory) (s : State) :
    (s.setMem sp m).mem sp = m := by cases sp <;> rfl

theorem mem_setMem_ne (sp sp' : Space) (m : Memory) (s : State) (h : sp' ≠ sp) :
    (s.setMem sp m).mem sp' = s.mem sp' := by
  cases sp <;> cases sp' <;> first | rfl | exact absurd rfl h

/-- Read one byte after replacing a memory by itself with a sequence written. -/
theorem readByte_setMem_writeBytes (sp sp' : Space) (s : State) (a b : Nat) (xs : List Byte) :
    (s.setMem sp (Memory.writeBytes (s.mem sp) a xs)).readByte sp' b =
      if sp' = sp ∧ a ≤ b ∧ b < a + xs.length then xs.getD (b - a) 0#8 else s.readByte sp' b := by
  by_cases hsp : sp' = sp
  · subst hsp
    simp only [State.readByte, mem_setMem_same, Memory.get?_writeBytes, setMem_draws, true_and]
    by_cases h : a ≤ b ∧ b < a + xs.length
    · have hlt : b - a < xs.length := by omega
      simp [h, hlt, List.getD]
    · simp only [if_neg h]
  · rw [readByte_congr sp' _ s b (mem_setMem_ne sp sp' _ s hsp) (setMem_draws ..)]
    simp [hsp]

@[simp] theorem readBytes_length (sp : Space) (s : State) (a n : Nat) :
    (s.readBytes sp a n).length = n := by
  induction n generalizing a with
  | zero => rfl
  | succ k ih => simp [State.readBytes, ih]

/-- The bytes of a sequence read are the bytes at its addresses. -/
theorem readBytes_getElem? (sp : Space) (s : State) (a n i : Nat) :
    (s.readBytes sp a n)[i]? = if i < n then some (s.readByte sp (a + i)) else none := by
  induction n generalizing a i with
  | zero => simp [State.readBytes]
  | succ k ih =>
    cases i with
    | zero => simp [State.readBytes]
    | succ j =>
      simp only [State.readBytes, List.getElem?_cons_succ, ih, Nat.add_lt_add_iff_right]
      congr 3
      omega

/-- A read sequence is fixed by its bytes. -/
theorem readBytes_congr (sp : Space) (s t : State) (a n : Nat)
    (h : ∀ b, a ≤ b → b < a + n → s.readByte sp b = t.readByte sp b) :
    s.readBytes sp a n = t.readBytes sp a n := by
  induction n generalizing a with
  | zero => rfl
  | succ k ih =>
    simp only [State.readBytes]
    rw [h a (Nat.le_refl a) (by omega), ih (a + 1) (fun b h1 h2 => h b (by omega) (by omega))]

/-- The 256 bytes of a memory as they read are equal exactly when each is. -/
theorem ofFn_readByte_eq_iff (sp : Space) (s t : State) :
    (Vector.ofFn fun a : Fin 256 => s.readByte sp a) = Vector.ofFn (fun a => t.readByte sp a) ↔
      ∀ a, a < 256 → s.readByte sp a = t.readByte sp a := by
  constructor
  · intro h a ha
    simpa [Vector.getElem_ofFn] using congrArg (fun v => v[a]) h
  · intro h
    ext a ha
    simp [h a ha]

/-- Two states stand for the same tuple of R47 exactly when the eight registers are equal and every
byte of both memories reads the same. -/
theorem sameTuple_iff (s s' : State) :
    SameTuple s s' ↔
      s.status = s'.status ∧ s.crc = s'.crc ∧ s.fcf = s'.fcf ∧ s.fdec = s'.fdec ∧ s.spb = s'.spb ∧
      s.sfd = s'.sfd ∧ s.flen = s'.flen ∧ s.padn = s'.padn ∧
      ∀ sp a, a < 256 → s.readByte sp a = s'.readByte sp a := by
  simp only [SameTuple, State.tuple, Tuple.mk.injEq, ofFn_readByte_eq_iff]
  constructor
  · rintro ⟨h1, h2, h3, h4, h5, h6, h7, h8, hd, hf⟩
    exact ⟨h1, h2, h3, h4, h5, h6, h7, h8, fun sp => by cases sp <;> assumption⟩
  · rintro ⟨h1, h2, h3, h4, h5, h6, h7, h8, h⟩
    exact ⟨h1, h2, h3, h4, h5, h6, h7, h8, h .din, h .fout⟩

/-- The state that stands for a tuple reads the tuple's bytes. -/
theorem toState_readByte_din (x : Tuple) (a : Nat) (h : a < 256) :
    x.toState.readByte .din a = x.din[a] := by
  simp [State.readByte, State.mem, Tuple.toState, Memory.get?_writeBytes, h]

theorem toState_readByte_fout (x : Tuple) (a : Nat) (h : a < 256) :
    x.toState.readByte .fout a = x.fout[a] := by
  simp [State.readByte, State.mem, Tuple.toState, Memory.get?_writeBytes, h]

/-- The state made of a tuple stands for that tuple. -/
@[simp] theorem tuple_toState (x : Tuple) : x.toState.tuple = x := by
  have hd : (Vector.ofFn fun a : Fin 256 => x.toState.readByte .din a) = x.din := by
    ext a ha
    simp [toState_readByte_din x a ha]
  have hf : (Vector.ofFn fun a : Fin 256 => x.toState.readByte .fout a) = x.fout := by
    ext a ha
    simp [toState_readByte_fout x a ha]
  simp only [State.tuple, hd, hf]
  rfl

/-- MemRead inside the space reads the bytes there. -/
theorem memRead_ok (sp : Space) (s : State) (a n : Nat) (h : a + n ≤ 256) :
    s.memRead sp a n = .ok (s.readBytes sp a n) := by
  have hs : Config.memSize sp = 256 := by cases sp <;> rfl
  simp [State.memRead, hs, h]

/-- MemWrite inside the space writes the bytes there. -/
theorem memWrite_ok (sp : Space) (s : State) (a : Nat) (xs : List Byte)
    (h : a + xs.length ≤ 256) :
    s.memWrite sp a xs = .ok (s.setMem sp (Memory.writeBytes (s.mem sp) a xs)) := by
  have hs : Config.memSize sp = 256 := by cases sp <;> rfl
  simp [State.memWrite, hs, h]

/-- Going on after a memory operation ends in a next state only if the operation succeeded. -/
theorem orFault_eq_next {α : Type} (r : Except Fault α)
    (k : α → Host.Outcome State Fault Refusal) (t : State) (h : orFault r k = .next t) :
    ∃ x, r = .ok x ∧ k x = .next t := by
  cases r with
  | ok x => exact ⟨x, rfl, h⟩
  | error f => simp [orFault] at h

@[simp] theorem orFault_ok {α : Type} (x : α) (k : α → Host.Outcome State Fault Refusal) :
    orFault (.ok x) k = k x := rfl

/-! ## Reset -/

/-- Reset gives every stored register its reset value and both memories a new draw. -/
theorem takeReset_readByte (sp : Space) (s : State) (a : Nat) :
    (takeReset s).readByte sp a = Config.resetByte sp (s.draws + 1) a := by
  cases sp <;> rfl

/-! ## One step -/

/-- Everything a step can do: wait, execute a command word, or take a reset. -/
theorem step_cases (s t : State) (h : step s = .next t) :
    (s.inputs = [] ∧ t = s) ∨
    (∃ cmd rest, s.inputs = .command cmd :: rest ∧ execWord cmd { s with inputs := rest } = .next t) ∨
    (∃ rest, s.inputs = .reset :: rest ∧ t = takeReset { s with inputs := rest }) ∨
    (∃ cmd rest, s.inputs = .resetDuring cmd :: rest ∧ t = takeReset { s with inputs := rest }) := by
  unfold step at h
  split at h
  · rename_i hi
    exact .inl ⟨hi, by simpa using h.symm⟩
  · rename_i i rest hi
    cases i with
    | command cmd => exact .inr (.inl ⟨cmd, rest, hi, h⟩)
    | reset => exact .inr (.inr (.inl ⟨rest, hi, by simpa [takeInput] using h.symm⟩))
    | resetDuring cmd =>
      exact .inr (.inr (.inr ⟨cmd, rest, hi, by simpa [takeInput] using h.symm⟩))

/-- Everything a command word can do: execute the command it encodes, or raise its decode error. -/
theorem execWord_cases (cmd : Word) (s t : State) (h : execWord cmd s = .next t) :
    (∃ i, decode cmd = .ok i ∧ exec i s = .next t) ∨
    (∃ e, decode cmd = .error e ∧ t = raise (codeOfDecodeError e) 0#4 s) := by
  unfold execWord at h
  split at h
  · rename_i i hi
    exact .inl ⟨i, hi, h⟩
  · rename_i e he
    exact .inr ⟨e, he, by simpa using h.symm⟩

end Sys2Proof.Machine
end

