-- ==== Sys2Proof/Laws/Frame.lean ====
section
/-! SUPPORT. BUILD's checks and the parts of a frame. -/

namespace Sys2Proof.Machine

open Sys2Proof.Safety

/-- BUILD's checks with the build parameters put in. -/
theorem buildError_eq (w : BitVec 8) (v : BitVec 5) (pad : BitVec 1) (seq : BitVec 9)
    (spb : BitVec 8) :
    buildError w v pad seq spb =
      if 255 < seq.toNat then some .errSeq
      else if 20 < v.toNat then some .errAddrLen
      else if 123 - v.toNat < w.toNat then some .errPayloadLen
      else if pad = 1#1 ∧ spb = 0#8 then some .errConfig
      else none := rfl

/-- BUILD's checks all pass exactly on the legal operands. -/
theorem buildError_eq_none_iff (w : BitVec 8) (v : BitVec 5) (pad : BitVec 1) (seq : BitVec 9)
    (spb : BitVec 8) : buildError w v pad seq spb = none ↔ LegalBuild w v pad seq spb := by
  rw [buildError_eq]
  unfold LegalBuild
  split
  · simp
    omega
  split
  · simp
    omega
  split
  · simp
    omega
  split
  · rename_i h
    simp [h]
  · rename_i h1 h2 h3 h4
    simp only [true_iff]
    exact ⟨by omega, by omega, by omega, fun h5 h6 => h4 ⟨h5, h6⟩⟩

/-- The bytes of a frame through the FCS. -/
theorem bareFrame_eq (fcf : BitVec 16) (seq : Byte) (addr payload : List Byte) (sfd : Byte) :
    bareFrame fcf seq addr payload sfd =
      [0x00#8, 0x00#8, 0x00#8, 0x00#8, sfd, BitVec.ofNat 8 (5 + addr.length + payload.length),
        fcf.extractLsb' 0 8, fcf.extractLsb' 8 8, seq] ++ addr ++ payload ++
        fcsBytes (mpduBytes fcf seq addr payload) := by
  have h : (mpduBytes fcf seq addr payload).length + 2 = 5 + addr.length + payload.length := by
    simp [mpduBytes, fcfBytes]
    omega
  simp only [bareFrame, h]
  simp [shrBytes, mpduBytes, fcfBytes, fill, List.replicate]

@[simp] theorem fcsBytes_length (mpdu : List Byte) : (fcsBytes mpdu).length = 2 := rfl

@[simp] theorem bareFrame_length (fcf : BitVec 16) (seq : Byte) (addr payload : List Byte)
    (sfd : Byte) :
    (bareFrame fcf seq addr payload sfd).length = 11 + addr.length + payload.length := by
  simp [bareFrame_eq]
  omega

/-- A padded frame is the frame through the FCS and then zero bytes. -/
theorem padFrame_eq (spb : Nat) (f : List Byte) :
    padFrame spb f = f ++ List.replicate (paddingBytes f.length spb + 5) 0x00#8 := by
  simp only [padFrame, fill, Config.tailLen, List.append_assoc, List.replicate_append_replicate]

end Sys2Proof.Machine
end

