-- ==== Sys2Proof/Laws/PerInstr.lean ====
section
/-! SUPPORT. Statements for all commands, one lemma per constructor of Instr. -/

namespace Sys2Proof.Laws.WellFormed

/-- Every operand of the command fits its field (spec/30_encoding.md R101, R112). -/
def Statement (i : Instr) : Prop := i.wf = true

theorem fits_toNat {w : Nat} (v : BitVec w) : fits w v.toNat = true := by
  simp [fits, v.isLt]

theorem nop : Statement .nop := by
  simp [Statement, Instr.wf, Instr.toAsm, AsmLine.wf]

theorem cfgSpb (imm8 : BitVec 8) : Statement (.cfgSpb imm8) := by
  simp [Statement, Instr.wf, Instr.toAsm, AsmLine.wf, fits_toNat]

theorem cfgSfd (imm8 : BitVec 8) : Statement (.cfgSfd imm8) := by
  simp [Statement, Instr.wf, Instr.toAsm, AsmLine.wf, fits_toNat]

theorem clrErr : Statement .clrErr := by
  simp [Statement, Instr.wf, Instr.toAsm, AsmLine.wf]

theorem crcInit (imm16 : BitVec 16) : Statement (.crcInit imm16) := by
  simp [Statement, Instr.wf, Instr.toAsm, AsmLine.wf, fits_toNat]

theorem crcByte (imm8 : BitVec 8) : Statement (.crcByte imm8) := by
  simp [Statement, Instr.wf, Instr.toAsm, AsmLine.wf, fits_toNat]

theorem crcByteS (imm8 : BitVec 8) : Statement (.crcByteS imm8) := by
  simp [Statement, Instr.wf, Instr.toAsm, AsmLine.wf, fits_toNat]

theorem crctRd (imm8 : BitVec 8) : Statement (.crctRd imm8) := by
  simp [Statement, Instr.wf, Instr.toAsm, AsmLine.wf, fits_toNat]

theorem fcfEnc (ft : BitVec 4) (se fp ar pc : BitVec 2) (dam sam : BitVec 3) : Statement (.fcfEnc ft se fp ar pc dam sam) := by
  simp [Statement, Instr.wf, Instr.toAsm, AsmLine.wf, FcfEncOperands.wf, fits_toNat]

theorem fcfLoad (imm16 : BitVec 16) : Statement (.fcfLoad imm16) := by
  simp [Statement, Instr.wf, Instr.toAsm, AsmLine.wf, fits_toNat]

theorem fcfDec : Statement .fcfDec := by
  simp [Statement, Instr.wf, Instr.toAsm, AsmLine.wf]

theorem build (w : BitVec 8) (v : BitVec 5) (pad : BitVec 1) (seq : BitVec 9) : Statement (.build w v pad seq) := by
  simp [Statement, Instr.wf, Instr.toAsm, AsmLine.wf, BuildOperands.wf, fits_toNat]

theorem padCalc (imm16 : BitVec 16) : Statement (.padCalc imm16) := by
  simp [Statement, Instr.wf, Instr.toAsm, AsmLine.wf, fits_toNat]

theorem dinWr (addr8 data8 : BitVec 8) : Statement (.dinWr addr8 data8) := by
  simp [Statement, Instr.wf, Instr.toAsm, AsmLine.wf, fits_toNat]

theorem dinRd (imm8 : BitVec 8) : Statement (.dinRd imm8) := by
  simp [Statement, Instr.wf, Instr.toAsm, AsmLine.wf, fits_toNat]

theorem foutRd (imm8 : BitVec 8) : Statement (.foutRd imm8) := by
  simp [Statement, Instr.wf, Instr.toAsm, AsmLine.wf, fits_toNat]

theorem regRd (imm8 : BitVec 8) : Statement (.regRd imm8) := by
  simp [Statement, Instr.wf, Instr.toAsm, AsmLine.wf, fits_toNat]

end Sys2Proof.Laws.WellFormed

namespace Sys2Proof.Laws.TableRow

/-- The command's word matches a row of the opcode map that stands for its opcode
(spec/30_encoding.md R108). -/
def Statement (i : Instr) : Prop :=
  ∃ row ∈ opcodeTable, row.opcode = i.opcode ∧ encode i &&& row.mask = row.matchBits

/-- A word of 32 bits masked by a constant, bit by bit. -/
theorem statement_of_bits (i : Instr) (row : OpcodeRow) (h : row ∈ opcodeTable)
    (ho : row.opcode = i.opcode)
    (hb : ∀ k, k < 32 →
      ((encode i).getLsbD k && row.mask.getLsbD k) = row.matchBits.getLsbD k) : Statement i := by
  refine ⟨row, h, ho, ?_⟩
  ext k hk
  simpa only [BitVec.getElem_and, BitVec.getLsbD_eq_getElem hk] using hb k hk

theorem nop : Statement .nop :=
  ⟨⟨.nop, "NOP", 0x00000000#32, 0xFFFFFFFF#32⟩, by simp [opcodeTable], rfl, by decide⟩

theorem cfgSpb (imm8 : BitVec 8) : Statement (.cfgSpb imm8) := by
  refine statement_of_bits _ ⟨.cfgSpb, "CFG_SPB", 0x01000000#32, 0xFFFFFF00#32⟩
    (by simp [opcodeTable]) rfl ?_
  intro k hk
  simp only [encode, BitVec.getLsbD_append]
  interval_cases k <;> simp

theorem cfgSfd (imm8 : BitVec 8) : Statement (.cfgSfd imm8) := by
  refine statement_of_bits _ ⟨.cfgSfd, "CFG_SFD", 0x02000000#32, 0xFFFFFF00#32⟩
    (by simp [opcodeTable]) rfl ?_
  intro k hk
  simp only [encode, BitVec.getLsbD_append]
  interval_cases k <;> simp

theorem clrErr : Statement .clrErr :=
  ⟨⟨.clrErr, "CLR_ERR", 0x03000000#32, 0xFFFFFFFF#32⟩, by simp [opcodeTable], rfl, by decide⟩

theorem crcInit (imm16 : BitVec 16) : Statement (.crcInit imm16) := by
  refine statement_of_bits _ ⟨.crcInit, "CRC_INIT", 0x10000000#32, 0xFFFF0000#32⟩
    (by simp [opcodeTable]) rfl ?_
  intro k hk
  simp only [encode, BitVec.getLsbD_append]
  interval_cases k <;> simp

theorem crcByte (imm8 : BitVec 8) : Statement (.crcByte imm8) := by
  refine statement_of_bits _ ⟨.crcByte, "CRC_BYTE", 0x11000000#32, 0xFFFFFF00#32⟩
    (by simp [opcodeTable]) rfl ?_
  intro k hk
  simp only [encode, BitVec.getLsbD_append]
  interval_cases k <;> simp

theorem crcByteS (imm8 : BitVec 8) : Statement (.crcByteS imm8) := by
  refine statement_of_bits _ ⟨.crcByteS, "CRC_BYTE_S", 0x12000000#32, 0xFFFFFF00#32⟩
    (by simp [opcodeTable]) rfl ?_
  intro k hk
  simp only [encode, BitVec.getLsbD_append]
  interval_cases k <;> simp

theorem crctRd (imm8 : BitVec 8) : Statement (.crctRd imm8) := by
  refine statement_of_bits _ ⟨.crctRd, "CRCT_RD", 0x13000000#32, 0xFFFFFF00#32⟩
    (by simp [opcodeTable]) rfl ?_
  intro k hk
  simp only [encode, BitVec.getLsbD_append]
  interval_cases k <;> simp

theorem fcfEnc (ft : BitVec 4) (se fp ar pc : BitVec 2) (dam sam : BitVec 3) : Statement (.fcfEnc ft se fp ar pc dam sam) := by
  refine statement_of_bits _ ⟨.fcfEnc, "FCF_ENC", 0x20000000#32, 0xFFFC0000#32⟩
    (by simp [opcodeTable]) rfl ?_
  intro k hk
  simp only [encode, BitVec.getLsbD_append]
  interval_cases k <;> simp

theorem fcfLoad (imm16 : BitVec 16) : Statement (.fcfLoad imm16) := by
  refine statement_of_bits _ ⟨.fcfLoad, "FCF_LOAD", 0x21000000#32, 0xFFFF0000#32⟩
    (by simp [opcodeTable]) rfl ?_
  intro k hk
  simp only [encode, BitVec.getLsbD_append]
  interval_cases k <;> simp

theorem fcfDec : Statement .fcfDec :=
  ⟨⟨.fcfDec, "FCF_DEC", 0x22000000#32, 0xFFFFFFFF#32⟩, by simp [opcodeTable], rfl, by decide⟩

theorem build (w : BitVec 8) (v : BitVec 5) (pad : BitVec 1) (seq : BitVec 9) : Statement (.build w v pad seq) := by
  refine statement_of_bits _ ⟨.build, "BUILD", 0x30000000#32, 0xFF800000#32⟩
    (by simp [opcodeTable]) rfl ?_
  intro k hk
  simp only [encode, BitVec.getLsbD_append]
  interval_cases k <;> simp

theorem padCalc (imm16 : BitVec 16) : Statement (.padCalc imm16) := by
  refine statement_of_bits _ ⟨.padCalc, "PAD_CALC", 0x38000000#32, 0xFFFF0000#32⟩
    (by simp [opcodeTable]) rfl ?_
  intro k hk
  simp only [encode, BitVec.getLsbD_append]
  interval_cases k <;> simp

theorem dinWr (addr8 data8 : BitVec 8) : Statement (.dinWr addr8 data8) := by
  refine statement_of_bits _ ⟨.dinWr, "DIN_WR", 0x40000000#32, 0xFFFF0000#32⟩
    (by simp [opcodeTable]) rfl ?_
  intro k hk
  simp only [encode, BitVec.getLsbD_append]
  interval_cases k <;> simp

theorem dinRd (imm8 : BitVec 8) : Statement (.dinRd imm8) := by
  refine statement_of_bits _ ⟨.dinRd, "DIN_RD", 0x41000000#32, 0xFFFFFF00#32⟩
    (by simp [opcodeTable]) rfl ?_
  intro k hk
  simp only [encode, BitVec.getLsbD_append]
  interval_cases k <;> simp

theorem foutRd (imm8 : BitVec 8) : Statement (.foutRd imm8) := by
  refine statement_of_bits _ ⟨.foutRd, "FOUT_RD", 0x42000000#32, 0xFFFFFF00#32⟩
    (by simp [opcodeTable]) rfl ?_
  intro k hk
  simp only [encode, BitVec.getLsbD_append]
  interval_cases k <;> simp

theorem regRd (imm8 : BitVec 8) : Statement (.regRd imm8) := by
  refine statement_of_bits _ ⟨.regRd, "REG_RD", 0x50000000#32, 0xFFFFFF00#32⟩
    (by simp [opcodeTable]) rfl ?_
  intro k hk
  simp only [encode, BitVec.getLsbD_append]
  interval_cases k <;> simp

end Sys2Proof.Laws.TableRow
end

