-- ==== Sys2Proof/Tests/Slice0.lean ====
section
/-! SUPPORT. Tests of one step each, and for every statement with hypotheses a concrete state and
operands that meet them. Expected values are the spec's: spec/95_test_vectors.md, or the example of
the rule named. -/

namespace Sys2Proof.Tests

open Sys2Proof.Machine Sys2Proof.Safety

/-! ## Well-formedness: every check refuses an ill-formed line (R112, R113) -/

theorem test_wf_refuses_wide_number :
    ([.cfgSpb 256, .cfgSfd 256, .crcInit 65536, .crcByte 256, .crcByteS 256, .crctRd 256,
      .fcfLoad 65536, .padCalc 65536, .dinWr 256 0, .dinWr 0 256, .dinRd 256, .foutRd 256,
      .regRd 256] : List AsmLine).all (fun l => !l.wf) = true := by decide

theorem test_wf_refuses_wide_fcf_operand :
    ([{ ft := 16 }, { se := 4 }, { fp := 4 }, { ar := 4 }, { pc := 4 }, { dam := 8 },
      { sam := 8 }] : List FcfEncOperands).all (fun f => !(AsmLine.fcfEnc f).wf) = true := by decide

theorem test_wf_refuses_wide_build_operand :
    ([{ seq := 512 }, { v := 32 }, { w := 256 }, { pad := 2 }] : List BuildOperands).all
      (fun b => !(AsmLine.build b).wf) = true := by decide

theorem test_wf_refuses_pseudo_operand :
    ([.crcBytes [1, 256], .crcStr [Char.ofNat 128], .crc16 65536 [], .crc16 0 [256],
      .dinLoad 256 [], .dinLoad 0 [256], .dinLoad 255 [1, 2]] : List AsmLine).all
      (fun l => !l.wf) = true := by decide

theorem test_wf_accepts_illegal_but_fitting :
    (AsmLine.fcfEnc { ft := 15, se := 3 }).wf = true ∧
    (AsmLine.build { seq := 511, v := 31, w := 255, pad := 1 }).wf = true ∧
    (AsmLine.dinLoad 254 [1, 2]).wf = true := by decide

/-! ## Decoding: one word per constructor, written out from the patterns of R101 and the opcodes of
R108 -/

theorem test_decode_nop :
    decode 0b00000000_000000000000000000000000#32 = .ok (.nop) ∧
    encode (.nop) = 0b00000000_000000000000000000000000#32 := by decide

theorem test_decode_cfgSpb :
    decode 0b00000001_0000000000000000_00001010#32 = .ok (.cfgSpb 10#8) ∧
    encode (.cfgSpb 10#8) = 0b00000001_0000000000000000_00001010#32 := by decide

theorem test_decode_cfgSfd :
    decode 0b00000010_0000000000000000_10100111#32 = .ok (.cfgSfd 0xA7#8) ∧
    encode (.cfgSfd 0xA7#8) = 0b00000010_0000000000000000_10100111#32 := by decide

theorem test_decode_clrErr :
    decode 0b00000011_000000000000000000000000#32 = .ok (.clrErr) ∧
    encode (.clrErr) = 0b00000011_000000000000000000000000#32 := by decide

theorem test_decode_crcInit :
    decode 0b00010000_00000000_0001001000110100#32 = .ok (.crcInit 0x1234#16) ∧
    encode (.crcInit 0x1234#16) = 0b00010000_00000000_0001001000110100#32 := by decide

theorem test_decode_crcByte :
    decode 0b00010001_0000000000000000_01010110#32 = .ok (.crcByte 0x56#8) ∧
    encode (.crcByte 0x56#8) = 0b00010001_0000000000000000_01010110#32 := by decide

theorem test_decode_crcByteS :
    decode 0b00010010_0000000000000000_01010110#32 = .ok (.crcByteS 0x56#8) ∧
    encode (.crcByteS 0x56#8) = 0b00010010_0000000000000000_01010110#32 := by decide

theorem test_decode_crctRd :
    decode 0b00010011_0000000000000000_10000000#32 = .ok (.crctRd 0x80#8) ∧
    encode (.crctRd 0x80#8) = 0b00010011_0000000000000000_10000000#32 := by decide

theorem test_decode_fcfEnc :
    decode 0b00100000_000000_110_011_10_01_11_10_1001#32 = .ok (.fcfEnc 9#4 2#2 3#2 1#2 2#2 3#3 6#3) ∧
    encode (.fcfEnc 9#4 2#2 3#2 1#2 2#2 3#3 6#3) = 0b00100000_000000_110_011_10_01_11_10_1001#32 := by decide

theorem test_decode_fcfLoad :
    decode 0b00100001_00000000_1111000000001111#32 = .ok (.fcfLoad 0xF00F#16) ∧
    encode (.fcfLoad 0xF00F#16) = 0b00100001_00000000_1111000000001111#32 := by decide

theorem test_decode_fcfDec :
    decode 0b00100010_000000000000000000000000#32 = .ok (.fcfDec) ∧
    encode (.fcfDec) = 0b00100010_000000000000000000000000#32 := by decide

theorem test_decode_build :
    decode 0b00110000_0_100000011_1_10010_01100101#32 = .ok (.build 101#8 18#5 1#1 259#9) ∧
    encode (.build 101#8 18#5 1#1 259#9) = 0b00110000_0_100000011_1_10010_01100101#32 := by decide

theorem test_decode_padCalc :
    decode 0b00111000_00000000_1000000000000001#32 = .ok (.padCalc 0x8001#16) ∧
    encode (.padCalc 0x8001#16) = 0b00111000_00000000_1000000000000001#32 := by decide

theorem test_decode_dinWr :
    decode 0b01000000_00000000_00001001_00101010#32 = .ok (.dinWr 9#8 0x2A#8) ∧
    encode (.dinWr 9#8 0x2A#8) = 0b01000000_00000000_00001001_00101010#32 := by decide

theorem test_decode_dinRd :
    decode 0b01000001_0000000000000000_11111110#32 = .ok (.dinRd 0xFE#8) ∧
    encode (.dinRd 0xFE#8) = 0b01000001_0000000000000000_11111110#32 := by decide

theorem test_decode_foutRd :
    decode 0b01000010_0000000000000000_00000100#32 = .ok (.foutRd 4#8) ∧
    encode (.foutRd 4#8) = 0b01000010_0000000000000000_00000100#32 := by decide

theorem test_decode_regRd :
    decode 0b01010000_0000000000000000_00001001#32 = .ok (.regRd 9#8) ∧
    encode (.regRd 9#8) = 0b01010000_0000000000000000_00001001#32 := by decide

/-- spec/95_test_vectors.md K2 to K9, B18, E23. -/
theorem test_decode_refuses_reserved_bits :
    [0x00000001#32, 0x01000100#32, 0x10010000#32, 0x22000001#32, 0x03000001#32, 0x13FFFFFF#32,
      0x30800000#32, 0x20040000#32, 0x38010000#32].all
      (fun w => decide (decode w = .error .reserved)) = true := by decide

/-- K3, K4, and the numbers next to the assigned ones (R109). -/
theorem test_decode_refuses_unassigned :
    [0x04000000#32, 0x0FFFFFFF#32, 0x14000000#32, 0x23000000#32, 0x31000000#32, 0x39000000#32,
      0x43000000#32, 0x51000000#32, 0xFF000000#32].all
      (fun w => decide (decode w = .error .illegal)) = true := by decide

theorem test_decodeTableWord :
    decodeTableWord 32 0x30006804 = some (.build 4#8 8#5 1#1 1#9) ∧
    decodeTableWord 32 0x00000001 = none := by decide

/-! ## The CRC table -/

/-- Entries 0x0 to 0x3f as spec/95_test_vectors.md section 2.1 lists them. -/
def listedTable0 : List Nat :=
  [0x0000, 0x1189, 0x2312, 0x329B, 0x4624, 0x57AD, 0x6536, 0x74BF,
   0x8C48, 0x9DC1, 0xAF5A, 0xBED3, 0xCA6C, 0xDBE5, 0xE97E, 0xF8F7,
   0x1081, 0x0108, 0x3393, 0x221A, 0x56A5, 0x472C, 0x75B7, 0x643E,
   0x9CC9, 0x8D40, 0xBFDB, 0xAE52, 0xDAED, 0xCB64, 0xF9FF, 0xE876,
   0x2102, 0x308B, 0x0210, 0x1399, 0x6726, 0x76AF, 0x4434, 0x55BD,
   0xAD4A, 0xBCC3, 0x8E58, 0x9FD1, 0xEB6E, 0xFAE7, 0xC87C, 0xD9F5,
   0x3183, 0x200A, 0x1291, 0x0318, 0x77A7, 0x662E, 0x54B5, 0x453C,
   0xBDCB, 0xAC42, 0x9ED9, 0x8F50, 0xFBEF, 0xEA66, 0xD8FD, 0xC974]

/-- Entries 0x40 to 0x7f as spec/95_test_vectors.md section 2.1 lists them. -/
def listedTable1 : List Nat :=
  [0x4204, 0x538D, 0x6116, 0x709F, 0x0420, 0x15A9, 0x2732, 0x36BB,
   0xCE4C, 0xDFC5, 0xED5E, 0xFCD7, 0x8868, 0x99E1, 0xAB7A, 0xBAF3,
   0x5285, 0x430C, 0x7197, 0x601E, 0x14A1, 0x0528, 0x37B3, 0x263A,
   0xDECD, 0xCF44, 0xFDDF, 0xEC56, 0x98E9, 0x8960, 0xBBFB, 0xAA72,
   0x6306, 0x728F, 0x4014, 0x519D, 0x2522, 0x34AB, 0x0630, 0x17B9,
   0xEF4E, 0xFEC7, 0xCC5C, 0xDDD5, 0xA96A, 0xB8E3, 0x8A78, 0x9BF1,
   0x7387, 0x620E, 0x5095, 0x411C, 0x35A3, 0x242A, 0x16B1, 0x0738,
   0xFFCF, 0xEE46, 0xDCDD, 0xCD54, 0xB9EB, 0xA862, 0x9AF9, 0x8B70]

/-- Entries 0x80 to 0xbf as spec/95_test_vectors.md section 2.1 lists them. -/
def listedTable2 : List Nat :=
  [0x8408, 0x9581, 0xA71A, 0xB693, 0xC22C, 0xD3A5, 0xE13E, 0xF0B7,
   0x0840, 0x19C9, 0x2B52, 0x3ADB, 0x4E64, 0x5FED, 0x6D76, 0x7CFF,
   0x9489, 0x8500, 0xB79B, 0xA612, 0xD2AD, 0xC324, 0xF1BF, 0xE036,
   0x18C1, 0x0948, 0x3BD3, 0x2A5A, 0x5EE5, 0x4F6C, 0x7DF7, 0x6C7E,
   0xA50A, 0xB483, 0x8618, 0x9791, 0xE32E, 0xF2A7, 0xC03C, 0xD1B5,
   0x2942, 0x38CB, 0x0A50, 0x1BD9, 0x6F66, 0x7EEF, 0x4C74, 0x5DFD,
   0xB58B, 0xA402, 0x9699, 0x8710, 0xF3AF, 0xE226, 0xD0BD, 0xC134,
   0x39C3, 0x284A, 0x1AD1, 0x0B58, 0x7FE7, 0x6E6E, 0x5CF5, 0x4D7C]

/-- Entries 0xc0 to 0xff as spec/95_test_vectors.md section 2.1 lists them. -/
def listedTable3 : List Nat :=
  [0xC60C, 0xD785, 0xE51E, 0xF497, 0x8028, 0x91A1, 0xA33A, 0xB2B3,
   0x4A44, 0x5BCD, 0x6956, 0x78DF, 0x0C60, 0x1DE9, 0x2F72, 0x3EFB,
   0xD68D, 0xC704, 0xF59F, 0xE416, 0x90A9, 0x8120, 0xB3BB, 0xA232,
   0x5AC5, 0x4B4C, 0x79D7, 0x685E, 0x1CE1, 0x0D68, 0x3FF3, 0x2E7A,
   0xE70E, 0xF687, 0xC41C, 0xD595, 0xA12A, 0xB0A3, 0x8238, 0x93B1,
   0x6B46, 0x7ACF, 0x4854, 0x59DD, 0x2D62, 0x3CEB, 0x0E70, 0x1FF9,
   0xF78F, 0xE606, 0xD49D, 0xC514, 0xB1AB, 0xA022, 0x92B9, 0x8330,
   0x7BC7, 0x6A4E, 0x58D5, 0x495C, 0x3DE3, 0x2C6A, 0x1EF1, 0x0F78]

theorem test_crcTable_is_the_listed_table :
    (listedTable0 ++ listedTable1 ++ listedTable2 ++ listedTable3) =
      (List.range 256).map (fun i => (crcTable (BitVec.ofNat 8 i)).toNat) := by decide +kernel

/-- The ASCII codes of "123456789". -/
def checkBytes : List Byte := [0x31#8, 0x32#8, 0x33#8, 0x34#8, 0x35#8, 0x36#8, 0x37#8, 0x38#8, 0x39#8]

/-- spec/95_test_vectors.md V1, V2, V7, V12, V13. -/
theorem test_crc16_vectors :
    crc16 checkBytes 0#16 = 0x2189#16 ∧ crc16 checkBytes 0xFFFF#16 = 0x6F91#16 ∧
    crc16 [0xFF#8, 0xFF#8] 0#16 = 0xF0B8#16 ∧
    crc16 (checkBytes ++ [0x89#8, 0x21#8]) 0#16 = 0#16 ∧
    crc16 (checkBytes ++ [0x21#8, 0x89#8]) 0#16 = 0x487D#16 := by decide +kernel

/-- The "aug" column of V1, V3, V7. -/
theorem test_crc16Aug_vectors :
    crc16Aug checkBytes = 0x2189#16 ∧ crc16Aug [0x41#8] = 0x538D#16 ∧
    crc16Aug [0xFF#8, 0xFF#8] = 0xF0B8#16 := by decide +kernel

/-! ## One command each -/

/-- What a command leaves, seen through `view`; none if it stops. -/
def seen {α : Type} (view : State → α) (i : Instr) (s : State) : Option α :=
  match exec i s with
  | .next t => some (view t)
  | .fault _ => none
  | .refused _ => none

/-- STATUS and the responses. -/
def outcome (s : State) : BitVec 17 × List Response := (s.status, s.responses)

/-- A state with the given STATUS. -/
def withStatus (st : BitVec 17) : State := { State.reset with status := st }

/-- A state with SPB configured. -/
def withSpb (n : BitVec 8) : State := { State.reset with spb := n }

/-- The state before vector B1: FCF = 0x8801, SPB = 2 and the scenario bytes in DIN. -/
def scenario : State :=
  { State.reset with
    fcf := 0x8801#16
    spb := 2#8
    din := [(0, 0xFF#8), (1, 0xFF#8), (2, 0xFF#8), (3, 0xFF#8), (4, 0xFF#8), (5, 0xFF#8),
      (6, 0xFF#8), (7, 0xFF#8), (8, 0x00#8), (9, 0x20#8), (10, 0x01#8), (11, 0x2A#8)] }

/-- R250: CODE is overwritten, STICKY stays. -/
theorem test_nop_keeps_sticky :
    seen outcome .nop (withStatus 0x10613#17) = some (0x10000#17, [⟨0#8, 0#32⟩]) := by decide

/-- K10. -/
theorem test_cfgSpb :
    seen (fun t => (t.spb, outcome t)) (.cfgSpb 2#8) State.reset =
      some (2#8, 0#17, [⟨0#8, 8#32⟩]) := by decide

/-- P3 step 2: CFG_SPB 0. -/
theorem test_cfgSpb_zero :
    seen (fun t => (t.spb, outcome t)) (.cfgSpb 0#8) (withSpb 8#8) =
      some (8#8, 0x10020#17, [⟨0x20#8, 0#32⟩]) := by decide

/-- K12. -/
theorem test_cfgSfd :
    seen (fun t => (t.sfd, outcome t)) (.cfgSfd 0#8) State.reset =
      some (0#8, 0#17, [⟨0#8, 0#32⟩]) := by decide

/-- K23. -/
theorem test_clrErr :
    seen outcome .clrErr (withStatus 0x10613#17) = some (0#17, [⟨0#8, 0#32⟩]) := by decide

/-- CC1. -/
theorem test_crcInit :
    seen (fun t => (t.crc, outcome t)) (.crcInit 0x1234#16) State.reset =
      some (0x1234#16, 0#17, [⟨0#8, 0x1234#32⟩]) := by decide

/-- CC3. -/
theorem test_crcByte :
    seen (fun t => (t.crc, outcome t)) (.crcByte 0x56#8) { State.reset with crc := 0x1234#16 } =
      some (0x4006#16, 0#17, [⟨0#8, 0x4006#32⟩]) := by decide +kernel

/-- CC10. -/
theorem test_crcByte_low_byte :
    seen (fun t => t.crc) (.crcByte 0x89#8) { State.reset with crc := 0x2189#16 } =
      some 0x0021#16 := by decide +kernel

/-- CC4. -/
theorem test_crcByteS :
    seen (fun t => (t.crc, outcome t)) (.crcByteS 0x56#8) { State.reset with crc := 0x1234#16 } =
      some (0x4006#16, 0#17, [⟨0#8, 0x4006#32⟩]) := by decide +kernel

/-- CC16. -/
theorem test_crctRd :
    seen outcome (.crctRd 0x31#8) State.reset = some (0#17, [⟨0#8, 0x200A#32⟩]) := by decide +kernel

/-- E10. -/
theorem test_fcfEnc :
    seen (fun t => (t.fcf, outcome t)) (.fcfEnc 1#4 0#2 0#2 1#2 1#2 2#3 2#3) State.reset =
      some (0x8861#16, 0#17, [⟨0#8, 0x8861#32⟩]) := by decide

/-- E21: the lowest index wins and FCF stays. -/
theorem test_fcfEnc_overflow :
    seen (fun t => (t.fcf, outcome t)) (.fcfEnc 8#4 0#2 0#2 0#2 0#2 0#3 4#3)
        { State.reset with fcf := 0x1234#16 } =
      some (0x1234#16, 0x10113#17, [⟨0x13#8, 0#32⟩]) := by decide

/-- FD2. -/
theorem test_fcfLoad :
    seen (fun t => (t.fcf, outcome t)) (.fcfLoad 0xFFFF#16) State.reset =
      some (0xFFFF#16, 0#17, [⟨0#8, 0xFFFF#32⟩]) := by decide

/-- FD2. -/
theorem test_fcfDec :
    seen (fun t => (t.fdec, outcome t)) .fcfDec { State.reset with fcf := 0xFFFF#16 } =
      some (0x1B557#18, 0#17, [⟨0#8, 0x1B557#32⟩]) := by decide

/-- B1. -/
theorem test_build_scenario :
    seen (fun t => (t.flen, t.fout.map Prod.snd, outcome t)) (.build 4#8 8#5 1#1 1#9) scenario =
      some (29#8,
        [0x00#8, 0x00#8, 0x00#8, 0x00#8, 0xA7#8, 0x11#8, 0x01#8, 0x88#8, 0x01#8, 0xFF#8, 0xFF#8,
          0xFF#8, 0xFF#8, 0xFF#8, 0xFF#8, 0xFF#8, 0xFF#8, 0x00#8, 0x20#8, 0x01#8, 0x2A#8, 0xC7#8,
          0xDB#8, 0x00#8, 0x00#8, 0x00#8, 0x00#8, 0x00#8, 0x00#8],
        0#17, [⟨0#8, 29#32⟩]) := by decide +kernel

/-- B19, B20, B21, B17, right after reset: the order of BUILD's checks. -/
theorem test_build_errors :
    [seen outcome (.build 255#8 31#5 1#1 511#9) State.reset,
      seen outcome (.build 200#8 21#5 1#1 0#9) State.reset,
      seen outcome (.build 124#8 0#5 1#1 0#9) State.reset,
      seen outcome (.build 0#8 0#5 1#1 0#9) State.reset] =
    [some (0x10010#17, [⟨0x10#8, 0#32⟩]), some (0x10011#17, [⟨0x11#8, 0#32⟩]),
      some (0x10012#17, [⟨0x12#8, 0#32⟩]), some (0x10020#17, [⟨0x20#8, 0#32⟩])] := by decide

/-- PD7. -/
theorem test_padCalc :
    seen (fun t => (t.padn, outcome t)) (.padCalc 65535#16) (withSpb 3#8) =
      some (1#8, 0#17, [⟨0#8, 1#32⟩]) := by decide +kernel

/-- P3 step 1. -/
theorem test_padCalc_unconfigured :
    seen outcome (.padCalc 21#16) State.reset = some (0x10020#17, [⟨0x20#8, 0#32⟩]) := by decide

/-- K13. -/
theorem test_dinWr :
    seen (fun t => (t.din, outcome t)) (.dinWr 9#8 0x2A#8) State.reset =
      some ([(9, 0x2A#8)], 0#17, [⟨0#8, 0#32⟩]) := by decide

/-- K14. -/
theorem test_dinRd :
    seen outcome (.dinRd 9#8) { State.reset with din := [(9, 0x2A#8)] } =
      some (0#17, [⟨0#8, 0x2A#32⟩]) := by decide

/-- R255: a byte never written since reset reads its free reset content. -/
theorem test_dinRd_unwritten :
    exec (.dinRd 7#8) State.reset =
      .next (complete (zext32 (Config.resetByte .din 0 7)) State.reset) := rfl

/-- K15. -/
theorem test_foutRd :
    seen outcome (.foutRd 4#8) { State.reset with fout := [(4, 0xA7#8)] } =
      some (0#17, [⟨0#8, 0xA7#32⟩]) := by decide

/-- K16 to K19, right after reset. -/
theorem test_regRd_after_reset :
    [seen outcome (.regRd 9#8) State.reset, seen outcome (.regRd 5#8) State.reset,
      seen outcome (.regRd 4#8) State.reset, seen outcome (.regRd 8#8) State.reset] =
    [some (0#17, [⟨0#8, 0x10051480#32⟩]), some (0#17, [⟨0#8, 0xA7#32⟩]),
      some (0#17, [⟨0#8, 0#32⟩]), some (0#17, [⟨0#8, 0#32⟩])] := by decide

/-- K22 and K20. -/
theorem test_regRd_status_and_unassigned :
    seen outcome (.regRd 0#8) (withStatus 0x10113#17) = some (0x10000#17, [⟨0#8, 0x10113#32⟩]) ∧
    seen outcome (.regRd 10#8) State.reset = some (0x10003#17, [⟨0x03#8, 0#32⟩]) := by decide

/-! ## Parts of a frame -/

/-- B12 and B15 in three pieces of 41 payload bytes: 0x55 with sequence number 0, 0x11 with 255. -/
theorem test_crc_of_first_piece :
    crc16 ([0x61#8, 0x88#8, 0x00#8] ++ List.replicate 41 0x55#8) 0#16 = 0xA667#16 ∧
    crc16 ([0x61#8, 0x88#8, 0xFF#8] ++ List.replicate 41 0x11#8) 0#16 = 0xB494#16 := by
  decide +kernel

theorem test_crc_of_second_piece :
    crc16 (List.replicate 41 0x55#8) 0xA667#16 = 0x498D#16 ∧
    crc16 (List.replicate 41 0x11#8) 0xB494#16 = 0x8555#16 := by decide +kernel

theorem test_crc_of_third_piece :
    crc16 (List.replicate 41 0x55#8) 0x498D#16 = 0x4E75#16 ∧
    crc16 (List.replicate 41 0x11#8) 0x8555#16 = 0xB9D2#16 := by decide +kernel

/-- B15: the length of the longest frame. -/
theorem test_longest_frame :
    (frame 0x8861#16 255#8 [] (List.replicate 123 0x11#8) 1#1 3 0xA7#8).length = 149 := by
  rw [frame, if_pos rfl, padFrame_eq, List.length_append, List.length_replicate, bareFrame_length,
    List.length_replicate]
  decide

/-- PD1 to PD12. -/
theorem test_padding_vectors :
    [paddingBytes 21 8, paddingBytes 22 8, paddingBytes 0 5, paddingBytes 23 2, paddingBytes 11 1,
      paddingBytes 17 16, paddingBytes 65535 3, paddingBytes 154 255, paddingBytes 29 2,
      paddingBytes 134 3, paddingBytes 24 4, paddingBytes 25 12] =
    [1, 0, 0, 1, 5, 0, 1, 6, 3, 10, 0, 3] := by decide +kernel

/-- R8: this build's BLOCK_SAMPLES is legal, and so are the bounds of the range. -/
theorem test_legalBlockSamples :
    Config.legalBlockSamples Config.blockSamples = true ∧ Config.legalBlockSamples 8 = true ∧
    Config.legalBlockSamples 936 = true ∧ Config.legalBlockSamples 944 = false ∧
    Config.legalBlockSamples 12 = false := by decide

/-! ## One step -/

/-- The step takes the word placed by withFetchWord (vector K13's word). -/
theorem test_step_runs_the_fetched_word :
    step (State.reset.withFetchWord 32 0x4000092A) =
      .next { State.reset with din := [(9, 0x2A#8)], responses := [⟨0#8, 0#32⟩] } := rfl

/-- K3: an unassigned opcode is answered, not refused by the model. -/
theorem test_step_answers_an_illegal_word :
    step (State.reset.withFetchWord 32 0x04000000) =
      .next { State.reset with status := 0x10001#17, responses := [⟨0x01#8, 0#32⟩] } := rfl

/-- R401, R402: reset after the scenario state; the draw moves on. -/
theorem test_step_reset :
    step { scenario with inputs := [.reset] } = .next { State.reset with draws := 1 } := rfl

/-! ## The assembler -/

/-- spec/95_test_vectors.md P5 steps 1 to 5, with the comments and spacing R112 allows. -/
theorem test_assemble_program_text :
    assembleText ("; P5\nFCF_LOAD 0xFFFF ; raw\n FCF_DEC\nFCF_ENC ft=7, se=1, fp=1, ar=1, pc=1, " ++
      "dam=3, sam=3\nCFG_SFD 0\nBUILD seq=255, v=0, w=0, pad=0").toList =
    some [0x2100FFFF#32, 0x22000000#32, 0x2001B557#32, 0x02000000#32, 0x303FC000#32] := by
  decide +kernel

/-- R113: the pseudo-commands. -/
theorem test_assemble_pseudo_commands :
    assemble (.crc16 0x1234 [1, 2]) = some [.crcInit 0x1234#16, .crcByte 1#8, .crcByte 2#8] ∧
    assemble (.crcStr ['1', '2']) = some [.crcByte 0x31#8, .crcByte 0x32#8] ∧
    assemble (.dinLoad 254 [7, 8]) = some [.dinWr 254#8 7#8, .dinWr 255#8 8#8] ∧
    assemble (.dinLoad 255 [7, 8]) = none ∧
    assemble (.rd .caps) = some [.regRd 9#8] := by decide

/-! ## Witnesses: the hypotheses of the statements are met

Each theorem is named after its statement (`Obligations.<Name>`) and shows operands and states for
every clause, at the bounds of the clause where it has bounds. -/

/-- Every `Encoding` clause: a word of the opcode without and one with a reserved bit. -/
theorem witness_Encoding :
    opcodeTable.all (fun r =>
      decide (r.matchBits.extractLsb' 24 8 = r.opcode.code) &&
      decide (r.matchBits &&& reservedMask r.opcode.format = 0#32) &&
      decide ((r.matchBits ||| reservedMask r.opcode.format).extractLsb' 24 8 = r.opcode.code) &&
      decide ((r.matchBits ||| reservedMask r.opcode.format) &&& reservedMask r.opcode.format ≠
        0#32)) = true := by decide

theorem witness_EncodeOfDecodedWordIsTheWord :
    decode 0x30FFFFFF#32 = .error .reserved ∧
    decode 0x307FFFFF#32 = .ok (.build 255#8 31#5 1#1 511#9) := by decide

theorem witness_WordIsCommandWhenMaskedBitsMatch :
    (⟨.build, "BUILD", 0x30000000#32, 0xFF800000#32⟩ : OpcodeRow) ∈ opcodeTable ∧
    0x307FFFFF#32 &&& 0xFF800000#32 = 0x30000000#32 := by
  refine ⟨by simp [opcodeTable], by decide⟩

/-- The bounds of the seven ranges. -/
theorem witness_UnassignedOpcodesRaiseErrIllegal :
    [0x04, 0x0F, 0x14, 0x1F, 0x23, 0x2F, 0x31, 0x37, 0x39, 0x3F, 0x43, 0x4F, 0x51, 0xFF].all
      unassignedOpcode = true ∧
    unassignedOpcode ((0x04000000#32).extractLsb' 24 8).toNat = true := by decide

/-- A state with one command word on the port. -/
def withWord (cmd : Word) (s : State) : State := { s with inputs := [.command cmd] }

theorem witness_StepExecutesTheDecodedWord :
    (withWord 0#32 scenario).inputs = .command 0#32 :: [] ∧ decode 0#32 = .ok .nop ∧
    (withWord 0xFF000000#32 scenario).inputs = .command 0xFF000000#32 :: [] ∧
    decode 0xFF000000#32 = .error .illegal ∧
    (withWord 1#32 scenario).inputs = .command 1#32 :: [] ∧ decode 1#32 = .error .reserved := by
  decide

theorem witness_StepWithoutInputWaits : scenario.inputs = [] := rfl

theorem witness_EveryCommandUpdatesStatusAndResponds :
    (withWord 0x50000000#32 (withStatus 0x10113#17)).inputs = .command 0x50000000#32 :: [] := rfl

/-- FCF_ENC ft=8 raises on the scenario state. -/
theorem witness_ErrorsLeaveNoTraceButStatus :
    ∃ t, (withWord 0x20000008#32 scenario).inputs = .command 0x20000008#32 :: [] ∧
      step (withWord 0x20000008#32 scenario) = .next t ∧
      t.responses = (withWord 0x20000008#32 scenario).responses ++ [⟨0x13#8, 0#32⟩] ∧
      (⟨0x13#8, 0#32⟩ : Response).code ≠ 0x00#8 :=
  ⟨_, rfl, rfl, rfl, by decide⟩

/-- Every clause: an error, a command other than CLR_ERR while STICKY is set, CLR_ERR, and both forms
of reset. -/
theorem witness_StickyIsSetByErrorsAndClearedByClrErrOrReset :
    (∃ t, step (withWord 0x04000000#32 scenario) = .next t ∧
      t.responses = (withWord 0x04000000#32 scenario).responses ++ [⟨0x01#8, 0#32⟩] ∧
      (⟨0x01#8, 0#32⟩ : Response).code ≠ 0x00#8) ∧
    (∃ t, step (withWord 0#32 (withStatus 0x10113#17)) = .next t ∧
      t.responses = (withWord 0#32 (withStatus 0x10113#17)).responses ++ [⟨0x00#8, 0#32⟩] ∧
      (withWord 0#32 (withStatus 0x10113#17)).status.getLsbD 16 = true ∧
      0#32 ≠ 0x03000000#32) ∧
    (∃ t, step (withWord 0x03000000#32 (withStatus 0x10113#17)) = .next t ∧
      t.responses = (withWord 0x03000000#32 (withStatus 0x10113#17)).responses ++ [⟨0x00#8, 0#32⟩]) ∧
    (∃ t, step { withStatus 0x10113#17 with inputs := [.reset] } = .next t) ∧
    ∃ t, step { withStatus 0x10113#17 with inputs := [.resetDuring 0#32] } = .next t :=
  ⟨⟨_, rfl, rfl, by decide⟩, ⟨_, rfl, rfl, by decide, by decide⟩, ⟨_, rfl, rfl⟩, ⟨_, rfl⟩, ⟨_, rfl⟩⟩

/-- Every clause: NOP is none of the commands named. -/
theorem witness_RegistersChangeOnlyByTheirCommands :
    (∃ t, exec .nop scenario = .next t) ∧
    Instr.nop.opcode ∉ [.crcInit, .crcByte, .crcByteS] ∧ Instr.nop.opcode ∉ [.fcfEnc, .fcfLoad] ∧
    Instr.nop.opcode ≠ .fcfDec ∧ Instr.nop.opcode ≠ .cfgSpb ∧ Instr.nop.opcode ≠ .cfgSfd ∧
    Instr.nop.opcode ≠ .build ∧ Instr.nop.opcode ≠ .padCalc :=
  ⟨⟨_, rfl⟩, by decide⟩

/-- Both clauses: BUILD leaves DIN, DIN_WR leaves FOUT. -/
theorem witness_MemoriesChangeOnlyByTheirCommands :
    (∃ t, exec (.build 4#8 8#5 1#1 1#9) scenario = .next t) ∧
    (Instr.build 4#8 8#5 1#1 1#9).opcode ≠ .dinWr ∧
    (∃ t, exec (.dinWr 255#8 1#8) scenario = .next t) ∧
    (Instr.dinWr 255#8 1#8).opcode ≠ .build :=
  ⟨⟨_, rfl⟩, by decide, ⟨_, rfl⟩, by decide⟩

theorem witness_ResetGivesEveryRegisterItsResetValue :
    ({ scenario with inputs := [.reset, .command 0#32] } : State).inputs =
      .reset :: [.command 0#32] := rfl

theorem witness_ResetDuringACommandDiscardsIt :
    ({ scenario with inputs := [.resetDuring 0x30006804#32] } : State).inputs =
      .resetDuring 0x30006804#32 :: [] := rfl

theorem witness_ResetDrawsBothMemoriesAnew :
    ({ scenario with inputs := [.reset] } : State).inputs = .reset :: [] := rfl

/-- DIN_WR 0 leaves DIN[1] unwritten. -/
theorem witness_UnwrittenBytesKeepTheirResetContent :
    ∃ t, step (withWord 0x40000005#32 State.reset) = .next t ∧
      Memory.get? (t.mem .din) 1 = none :=
  ⟨_, rfl, rfl⟩

/-- The scenario state is legal, and BUILD is its next command. -/
theorem witness_EveryStepKeepsLegalState :
    LegalState (withWord 0x30006804#32 scenario) ∧
    ∃ t, step (withWord 0x30006804#32 scenario) = .next t :=
  ⟨by decide, _, rfl⟩

/-- A state that holds the eleven-byte frame of vector B3. -/
def holdsB3 : State :=
  { State.reset with
    flen := 11#8
    fout := [(0, 0x00#8), (1, 0x00#8), (2, 0x00#8), (3, 0x00#8), (4, 0xA7#8), (5, 0x05#8),
      (6, 0x00#8), (7, 0x00#8), (8, 0x00#8), (9, 0x00#8), (10, 0x00#8)] }

theorem witness_EveryStepKeepsAFrameInFout :
    FoutHoldsFrame (withWord 0x4000092A#32 holdsB3) ∧
    ∃ t, step (withWord 0x4000092A#32 holdsB3) = .next t :=
  ⟨.inr ⟨0#16, 0#8, [], [], 0#1, 0#8, 0xA7#8, by decide, by decide, by decide, by decide +kernel,
    by decide +kernel⟩, _, rfl⟩

theorem witness_CfgSpbConfiguresSamplesPerBit : 1#8 ≠ 0x00#8 ∧ 255#8 ≠ 0x00#8 := by decide

/-- The three clauses with hypotheses; 0x0A is the first unassigned regno, 0xFF the last. -/
theorem witness_RegRdReadsEveryRegister :
    State.reset.spb = 0#8 ∧ (withSpb 1#8).spb ≠ 0#8 ∧ (withSpb 255#8).spb ≠ 0#8 ∧
    0x0A ≤ (0x0A#8).toNat ∧ 0x0A ≤ (0xFF#8).toNat := by decide

/-- All operands at their maxima (E9). -/
theorem witness_FcfEncPacksLegalFields :
    (7#4).toNat ≤ 7 ∧ (1#2).toNat ≤ 1 ∧ (3#3).toNat ≤ 3 := by decide

/-- Each clause at its least failing value, the earlier operands at their maxima. -/
theorem witness_FcfEncNamesTheFirstOverflow :
    7 < (8#4).toNat ∧ ((7#4).toNat ≤ 7 ∧ 1 < (2#2).toNat) ∧ (1#2).toNat ≤ 1 ∧
    3 < (4#3).toNat ∧ (3#3).toNat ≤ 3 := by decide

/-- Each clause: the maxima, an accepted and a refused record. -/
theorem witness_FcfCodecRoundTrips :
    encodeFcf ⟨7, 1, 1, 1, 1, 3, 3⟩ = .ok 0xCC7F#16 ∧ encodeFcf ⟨8, 0, 0, 0, 0, 0, 0⟩ = .error 1#4 ∧
    encodeFcf ⟨7, 1, 1, 1, 1, 3, 4⟩ = .error 7#4 := by decide

theorem witness_PadCalcComputesThePadding :
    State.reset.spb = 0#8 ∧ (withSpb 1#8).spb ≠ 0#8 ∧ (withSpb 255#8).spb ≠ 0#8 := by decide

theorem witness_ByteModulusDependsOnlyOnTheGcd :
    0 < 1 ∧ byteModulus 1 = 16 ∧ byteModulus 2 = 8 ∧ byteModulus 4 = 4 ∧ byteModulus 8 = 2 ∧
    byteModulus 16 = 1 := by decide +kernel

theorem witness_PaddingAlignsToTransportBlocks :
    0 < 1 ∧ (15 + paddingBytes 15 1) % byteModulus 1 = 0 ∧ (15 + 1) % byteModulus 1 = 0 := by
  decide +kernel

/-- Each clause at its bound, the earlier operands at theirs. -/
theorem witness_BuildReportsTheFirstFailingCheck :
    255 < (256#9).toNat ∧ ((255#9).toNat ≤ 255 ∧ 20 < (21#5).toNat) ∧
    ((20#5).toNat ≤ 20 ∧ 123 - (20#5).toNat < (104#8).toNat) ∧
    (123 - (0#5).toNat < (124#8).toNat) ∧
    ((103#8).toNat ≤ 123 - (20#5).toNat ∧ State.reset.spb = 0#8) := by decide

/-- The longest frames, padded and not: V = 20, W = 103, seq = 255. -/
theorem witness_BuildStoresTheFrame :
    LegalBuild 103#8 20#5 1#1 255#9 scenario.spb ∧ LegalBuild 0#8 0#5 0#1 0#9 State.reset.spb := by
  decide

theorem witness_FrameLayoutInFout :
    LegalBuild 123#8 0#5 1#1 255#9 (withSpb 3#8).spb ∧ LegalBuild 103#8 20#5 0#1 0#9 0#8 := by decide

theorem witness_FrameLengthsAndBounds :
    LegalBuild 123#8 0#5 1#1 255#9 (withSpb 3#8).spb ∧ LegalBuild 0#8 0#5 0#1 0#9 0#8 := by decide

/-- The clause on other lengths: V = 0 and W = 123 (vectors B15 and B16). -/
theorem witness_UnpaddedFrameParsesBack :
    LegalBuild 103#8 20#5 0#1 255#9 State.reset.spb ∧ (0#5).toNat ≤ 20 ∧
    (0#5).toNat + (123#8).toNat = (20#5).toNat + (103#8).toNat := by decide

/-- Two states that differ in DIN[12], CRC and STATUS but in nothing that BUILD reads. -/
theorem witness_FrameDependsOnlyOnTheBuildInputs :
    LegalBuild 4#8 8#5 1#1 1#9 scenario.spb ∧
    SameBuildInputs 8 4 scenario
      { scenario with crc := 1#16, status := 0x10001#17, din := scenario.din ++ [(12, 7#8)] } := by
  refine ⟨by decide, rfl, rfl, rfl, ?_⟩
  have h : ∀ a, a < 12 → Memory.get? scenario.din a ≠ none ∧
      Memory.get? scenario.din a = Memory.get? (scenario.din ++ [(12, 7#8)]) a := by decide
  intro a ha
  have h2 := (h a (by omega)).2
  simp only [State.readByte, State.mem, h2]

/-- A memory of 256 written bytes. -/
def fullMemory : Memory := (List.range 256).map fun a => (a, 0x5A#8)

/-- Two states with the same tuple and other draws, inputs and responses. -/
theorem witness_CommandsDependOnlyOnTheTuple :
    SameTuple { scenario with din := fullMemory, fout := fullMemory }
      { scenario with
        din := fullMemory, fout := fullMemory, draws := 7, inputs := [.reset], responses := [] } := by
  have h : ∀ a, a < 256 → Memory.get? fullMemory a = some 0x5A#8 := by decide +kernel
  refine (sameTuple_iff _ _).2 ⟨rfl, rfl, rfl, rfl, rfl, rfl, rfl, rfl, ?_⟩
  intro sp a ha
  cases sp <;> simp only [State.readByte, State.mem, h a ha]

/-- A command word, and both forms of reset. -/
theorem witness_StepRunsTheBlockOnItsTuple :
    (withWord 0x30006804#32 scenario).inputs = .command 0x30006804#32 :: [] ∧
    ({ scenario with inputs := [.reset] } : State).inputs = .reset :: [] ∧
    ({ scenario with inputs := [.resetDuring 0#32] } : State).inputs = .resetDuring 0#32 :: [] :=
  ⟨rfl, rfl, rfl⟩

theorem witness_Crc16PseudoCommandComputesTheCrc :
    65535 < 65536 ∧ ∀ b ∈ [0, 255], b < 256 := by decide

theorem witness_DinLoadPseudoCommandLoadsTheBytes :
    255 < 256 ∧ (∀ b ∈ [255], b < 256) ∧ 255 + [255].length ≤ 256 := by decide

end Sys2Proof.Tests
end

/-! SUPPORT. Proofs for the statements about the state (spec/10_state.md). What a command does is said
once: every command makes at most one write to the state and then ends as spec/60_exceptions.md R300
says. `exec_eq` ties that form to `exec`, and the statements follow from the form. -/

namespace Sys2Proof.Machine

open Sys2Proof.Safety

/-! ## The padding and the length of a frame -/

/-- The byte modulus of a positive SPB divides the 16 bytes of a transport block (R230). -/
theorem byteModulus_dvd_sixteen (spb : Nat) (h : 0 < spb) : byteModulus spb ∣ 16 := by
  have hmul : byteModulus spb * spb = Nat.lcm 16 spb :=
    Nat.div_mul_cancel (Nat.dvd_lcm_right 16 spb)
  have hdvd : byteModulus spb * spb ∣ 16 * spb := hmul ▸ Nat.lcm_dvd_mul 16 spb
  exact Nat.dvd_of_mul_dvd_mul_right h hdvd

theorem byteModulus_mem (spb : Nat) (h : 0 < spb) : byteModulus spb ∈ [1, 2, 4, 8, 16] := by
  have hdvd := byteModulus_dvd_sixteen spb h
  have hle : byteModulus spb ≤ 16 := Nat.le_of_dvd (by decide) hdvd
  generalize byteModulus spb = m at hdvd hle ⊢
  interval_cases m <;> revert hdvd <;> decide

theorem paddingBytes_lt_sixteen (len spb : Nat) (h : 0 < spb) : paddingBytes len spb < 16 := by
  have hm := byteModulus_mem spb h
  simp only [List.mem_cons, List.not_mem_nil, or_false] at hm
  unfold paddingBytes
  split <;> omega

/-- 144 is a multiple of every byte modulus, so padding does not cross it. -/
theorem add_paddingBytes_le (len spb : Nat) (h : 0 < spb) (hlen : len ≤ 144) :
    len + paddingBytes len spb ≤ 144 := by
  have hm := byteModulus_mem spb h
  simp only [List.mem_cons, List.not_mem_nil, or_false] at hm
  unfold paddingBytes
  rcases hm with hm | hm | hm | hm | hm <;> rw [hm] <;> split <;> omega

/-- A frame of inputs that BUILD accepts (spec/42_frame.md R206). -/
def LegalFrame (f : List Byte) : Prop :=
  ∃ (fcf : BitVec 16) (seq : Byte) (addr payload : List Byte) (pad : BitVec 1) (spb : BitVec 8)
    (sfd : Byte),
    addr.length ≤ 20 ∧ addr.length + payload.length ≤ 123 ∧ (pad = 1#1 → spb ≠ 0#8) ∧
    f = frame fcf seq addr payload pad spb.toNat sfd

theorem toNat_pos_of_ne_zero {v : BitVec 8} (h : v ≠ 0#8) : 0 < v.toNat := by bv_omega

/-- R211: a legal frame has 11 to 149 bytes. -/
theorem LegalFrame.length_bounds {f : List Byte} (h : LegalFrame f) :
    11 ≤ f.length ∧ f.length ≤ 149 := by
  obtain ⟨fcf, seq, addr, payload, pad, spb, sfd, -, hlen, hpad, rfl⟩ := h
  unfold frame
  split
  next hp =>
    have hn := add_paddingBytes_le (11 + addr.length + payload.length) spb.toNat
      (toNat_pos_of_ne_zero (hpad hp)) (by omega)
    simp only [padFrame_eq, List.length_append, bareFrame_length, List.length_replicate]
    omega
  next =>
    rw [bareFrame_length]
    omega

/-! ## The one write of a command -/

/-- The one write that a command makes before its end. -/
inductive Update where
  /-- No register and no byte is written. -/
  | keep
  /-- STICKY is cleared. -/
  | clearSticky
  | crc (v : BitVec 16)
  | fcf (v : BitVec 16)
  | fdec (v : BitVec 18)
  | spb (v : BitVec 8)
  | sfd (v : BitVec 8)
  | padn (v : BitVec 8)
  /-- One byte of DIN. -/
  | dinByte (addr8 data8 : BitVec 8)
  /-- A frame at the start of FOUT, and its length in FLEN. -/
  | frame (f : List Byte)

namespace Update

/-- The state after the write. -/
def apply (u : Update) (s : State) : State :=
  match u with
  | .keep => s
  | .clearSticky => { s with status := Machine.clearSticky s.status }
  | .crc v => { s with crc := v }
  | .fcf v => { s with fcf := v }
  | .fdec v => { s with fdec := v }
  | .spb v => { s with spb := v }
  | .sfd v => { s with sfd := v }
  | .padn v => { s with padn := v }
  | .dinByte addr8 data8 =>
    s.setMem .din (Memory.writeBytes (s.mem .din) addr8.toNat [data8])
  | .frame f =>
    { s.setMem .fout (Memory.writeBytes (s.mem .fout) 0 f) with flen := BitVec.ofNat 8 f.length }

/-- The commands that spec/10_state.md R33 and spec/20_memory.md R70 list as writing what the update
writes. -/
def writers : Update → List Opcode
  | .keep => allOpcodes
  | .clearSticky => [.clrErr]
  | .crc _ => [.crcInit, .crcByte, .crcByteS]
  | .fcf _ => [.fcfEnc, .fcfLoad]
  | .fdec _ => [.fcfDec]
  | .spb _ => [.cfgSpb]
  | .sfd _ => [.cfgSfd]
  | .padn _ => [.padCalc]
  | .dinByte _ _ => [.dinWr]
  | .frame _ => [.build]

/-- The first address that the update writes in a space. -/
def addr : Update → Space → Nat
  | .dinByte addr8 _, .din => addr8.toNat
  | _, _ => 0

/-- The bytes that the update writes in a space. -/
def bytes : Update → Space → List Byte
  | .dinByte _ data8, .din => [data8]
  | .frame f, .fout => f
  | _, _ => []

/-- The update writes only what its register or memory may hold: FDEC only sub-field bits (R37), PADN
below 16 (R233), FOUT a frame (R38, R45). -/
def Legal : Update → Prop
  | .fdec v => v &&& 0x24AA8#18 = 0#18
  | .padn v => v.toNat < 16
  | .frame f => LegalFrame f
  | _ => True

@[simp] theorem apply_draws (u : Update) (s : State) : (u.apply s).draws = s.draws := by
  cases u <;> simp [apply]

@[simp] theorem apply_inputs (u : Update) (s : State) : (u.apply s).inputs = s.inputs := by
  cases u <;> simp [apply]

@[simp] theorem apply_responses (u : Update) (s : State) :
    (u.apply s).responses = s.responses := by
  cases u <;> simp [apply]

/-- R33: an update writes a register only for the commands listed for that register. -/
theorem apply_registers (u : Update) (s : State) (op : Opcode) (h : op ∈ u.writers) :
    (op ∉ [.crcInit, .crcByte, .crcByteS] → (u.apply s).crc = s.crc) ∧
    (op ∉ [.fcfEnc, .fcfLoad] → (u.apply s).fcf = s.fcf) ∧
    (op ≠ .fcfDec → (u.apply s).fdec = s.fdec) ∧
    (op ≠ .cfgSpb → (u.apply s).spb = s.spb) ∧
    (op ≠ .cfgSfd → (u.apply s).sfd = s.sfd) ∧
    (op ≠ .build → (u.apply s).flen = s.flen) ∧
    (op ≠ .padCalc → (u.apply s).padn = s.padn) := by
  cases u with
  | crc v => exact ⟨fun hop => absurd h hop, by simp [apply]⟩
  | fcf v => exact ⟨fun _ => rfl, fun hop => absurd h hop, by simp [apply]⟩
  | _ => simp_all [writers, apply]

/-- After an update a memory is the one before with the update's bytes written. -/
theorem apply_mem (u : Update) (s : State) (sp : Space) :
    (u.apply s).mem sp = Memory.writeBytes (s.mem sp) (u.addr sp) (u.bytes sp) := by
  cases u <;> cases sp <;> rfl

/-- A byte read after an update is the one written there, or the one read before. -/
theorem readByte_apply (u : Update) (s : State) (sp : Space) (a : Nat) :
    (u.apply s).readByte sp a =
      if u.addr sp ≤ a ∧ a < u.addr sp + (u.bytes sp).length
      then (u.bytes sp).getD (a - u.addr sp) 0#8 else s.readByte sp a := by
  calc (u.apply s).readByte sp a
      = (s.setMem sp (Memory.writeBytes (s.mem sp) (u.addr sp) (u.bytes sp))).readByte sp a :=
        readByte_congr sp _ _ a (by rw [apply_mem, mem_setMem_same]) (by simp)
    _ = _ := by rw [readByte_setMem_writeBytes]; simp only [true_and]

/-- The bytes of a legal update lie inside its space, and those in FOUT below 149 (R70, R71). -/
theorem addr_add_length_le (u : Update) (hu : u.Legal) :
    u.addr .din + (u.bytes .din).length ≤ 256 ∧ u.addr .fout + (u.bytes .fout).length ≤ 149 := by
  cases u with
  | dinByte addr8 data8 =>
    simp only [addr, bytes, List.length_singleton, List.length_nil]
    omega
  | frame f =>
    have hf := LegalFrame.length_bounds hu
    simp only [addr, bytes, List.length_nil]
    omega
  | _ => simp [addr, bytes]

/-- R47: an update depends on the tuple alone. -/
theorem apply_sameTuple (u : Update) {s s' : State} (h : SameTuple s s') :
    SameTuple (u.apply s) (u.apply s') := by
  obtain ⟨hstatus, hcrc, hfcf, hfdec, hspb, hsfd, hflen, hpadn, hbytes⟩ := (sameTuple_iff s s').1 h
  have hread : ∀ sp a, a < 256 → (u.apply s).readByte sp a = (u.apply s').readByte sp a := by
    intro sp a ha
    rw [readByte_apply, readByte_apply, hbytes sp a ha]
  refine (sameTuple_iff _ _).2 ⟨?_, ?_, ?_, ?_, ?_, ?_, ?_, ?_, hread⟩ <;>
    cases u <;> simp [apply, *]

end Update

/-! ## The effect of a command -/

/-- What a command does: its one write, and the code, FIELD and data of its end (R300). -/
structure Effect where
  update : Update
  code : StatusCode
  field : BitVec 4
  data : Word

namespace Effect

/-- The command writes and completes with code OK. -/
def ok (u : Update) (data : Word) : Effect := ⟨u, .ok, 0#4, data⟩

/-- The command raises and writes nothing (R302). -/
def error (c : StatusCode) (f : BitVec 4) : Effect := ⟨.keep, c, f, 0#32⟩

/-- The state after the command. -/
def run (e : Effect) (s : State) : State := finish e.code e.field e.data (e.update.apply s)

/-- The response of the command. -/
def response (e : Effect) : Response := ⟨e.code.bits, if e.code = .ok then e.data else 0#32⟩

/-- The update is legal, and ERR_FCF_OVERFLOW names a sub-field (R34). -/
def Legal (e : Effect) : Prop :=
  e.update.Legal ∧ (e.code = .errFcfOverflow → 1 ≤ e.field.toNat ∧ e.field.toNat ≤ 7)

theorem run_ok (u : Update) (data : Word) (s : State) :
    (ok u data).run s = complete data (u.apply s) := rfl

theorem run_error (c : StatusCode) (f : BitVec 4) (s : State) : (error c f).run s = raise c f s := rfl

@[simp] theorem run_responses (e : Effect) (s : State) :
    (e.run s).responses = s.responses ++ [e.response] := by
  simp [run, response]

@[simp] theorem run_draws (e : Effect) (s : State) : (e.run s).draws = s.draws := by simp [run]

@[simp] theorem run_inputs (e : Effect) (s : State) : (e.run s).inputs = s.inputs := by simp [run]

theorem run_mem (e : Effect) (s : State) (sp : Space) :
    (e.run s).mem sp = Memory.writeBytes (s.mem sp) (e.update.addr sp) (e.update.bytes sp) := by
  rw [run, mem_finish, Update.apply_mem]

theorem legal_ok {u : Update} (data : Word) (hu : u.Legal) : (ok u data).Legal :=
  ⟨hu, fun h => nomatch h⟩

theorem legal_error {c : StatusCode} (f : BitVec 4) (hc : c ≠ .errFcfOverflow) :
    (error c f).Legal :=
  ⟨trivial, fun h => absurd h hc⟩

/-- R47: the state after an effect depends on the tuple alone. -/
theorem run_sameTuple (e : Effect) {s s' : State} (h : SameTuple s s') :
    SameTuple (e.run s) (e.run s') := by
  obtain ⟨hstatus, hrest⟩ := (sameTuple_iff _ _).1 (e.update.apply_sameTuple h)
  refine (sameTuple_iff _ _).2 ⟨?_, ?_⟩
  · simp only [run, finish_status, hstatus]
  · simpa [run] using hrest

end Effect

/-- The frame that BUILD makes of a state (R206). -/
def builtFrame (w : BitVec 8) (v : BitVec 5) (pad : BitVec 1) (seq : BitVec 9) (s : State) :
    List Byte :=
  frame s.fcf (seq.setWidth 8) (s.readBytes .din 0 v.toNat) (s.readBytes .din v.toNat w.toNat) pad
    s.spb.toNat s.sfd

theorem legalFrame_builtFrame (w : BitVec 8) (v : BitVec 5) (pad : BitVec 1) (seq : BitVec 9)
    (s : State) (h : LegalBuild w v pad seq s.spb) : LegalFrame (builtFrame w v pad seq s) := by
  obtain ⟨-, hv, hvw, hpad⟩ := h
  exact ⟨s.fcf, seq.setWidth 8, s.readBytes .din 0 v.toNat, s.readBytes .din v.toNat w.toNat, pad,
    s.spb, s.sfd, by simpa using hv, by simpa using hvw, hpad, rfl⟩

/-- What each command does in a state. -/
def effect (i : Instr) (s : State) : Effect :=
  match i with
  | .nop => .ok .keep 0#32
  | .cfgSpb imm8 =>
    if imm8 = 0#8 then .error .errConfig 0#4
    else .ok (.spb imm8) (wordOfNat (byteModulus imm8.toNat))
  | .cfgSfd imm8 => .ok (.sfd imm8) (zext32 imm8)
  | .clrErr => .ok .clearSticky 0#32
  | .crcInit imm16 => .ok (.crc imm16) (zext32 imm16)
  | .crcByte imm8 => .ok (.crc (crcStep s.crc imm8)) (zext32 (crcStep s.crc imm8))
  | .crcByteS imm8 => .ok (.crc (crcStepSerial s.crc imm8)) (zext32 (crcStepSerial s.crc imm8))
  | .crctRd imm8 => .ok .keep (zext32 (crcTable imm8))
  | .fcfEnc ft se fp ar pc dam sam =>
    match encodeFcf (fcfOperands ft se fp ar pc dam sam) with
    | .error index => .error .errFcfOverflow index
    | .ok v => .ok (.fcf v) (zext32 v)
  | .fcfLoad imm16 => .ok (.fcf imm16) (zext32 imm16)
  | .fcfDec => .ok (.fdec (packFdec (decodeFcf s.fcf))) (zext32 (packFdec (decodeFcf s.fcf)))
  | .build w v pad seq =>
    match buildError w v pad seq s.spb with
    | some e => .error e 0#4
    | none => .ok (.frame (builtFrame w v pad seq s)) (wordOfNat (builtFrame w v pad seq s).length)
  | .padCalc imm16 =>
    if s.spb = 0#8 then .error .errConfig 0#4
    else .ok (.padn (BitVec.ofNat 8 (paddingBytes imm16.toNat s.spb.toNat)))
      (wordOfNat (paddingBytes imm16.toNat s.spb.toNat))
  | .dinWr addr8 data8 => .ok (.dinByte addr8 data8) 0#32
  | .dinRd imm8 => .ok .keep (zext32 (s.readByte .din imm8.toNat))
  | .foutRd imm8 => .ok .keep (zext32 (s.readByte .fout imm8.toNat))
  | .regRd imm8 =>
    match regOf imm8 with
    | some r => .ok .keep (s.readReg r)
    | none => .error .errRegno 0#4

/-- An 8-bit address names a byte of each memory (R70, R71). -/
theorem memRead_addr8 (sp : Space) (s : State) (addr8 : BitVec 8) :
    s.memRead sp addr8.toNat 1 = .ok [s.readByte sp addr8.toNat] :=
  memRead_ok sp s addr8.toNat 1 (by omega)

/-- R206: an accepted BUILD completes with its frame in FOUT. -/
theorem execBuild_of_legal (w : BitVec 8) (v : BitVec 5) (pad : BitVec 1) (seq : BitVec 9)
    (s : State) (h : LegalBuild w v pad seq s.spb) :
    execBuild w v pad seq s =
      .next ((Effect.ok (.frame (builtFrame w v pad seq s))
        (wordOfNat (builtFrame w v pad seq s).length)).run s) := by
  have hflen := (legalFrame_builtFrame w v pad seq s h).length_bounds.2
  have hwrite := memWrite_ok .fout s 0 (builtFrame w v pad seq s) (by omega)
  have hnone := (buildError_eq_none_iff w v pad seq s.spb).2 h
  obtain ⟨-, hv, hvw, -⟩ := h
  have haddr := memRead_ok .din s 0 v.toNat (by omega)
  have hpayload := memRead_ok .din s v.toNat w.toNat (by omega)
  unfold builtFrame at hwrite ⊢
  simp only [execBuild, hnone, haddr, hpayload, hwrite, orFault_ok, Effect.run_ok, Update.apply]

/-- Every command completes, and its effect is all it does. -/
theorem exec_eq (i : Instr) (s : State) : exec i s = .next ((effect i s).run s) := by
  cases i with
  | nop | cfgSfd | clrErr | crcInit | crcByte | crcByteS | crctRd | fcfLoad | fcfDec => rfl
  | cfgSpb imm8 =>
    simp only [exec, execCfgSpb, effect]
    split <;> rfl
  | fcfEnc ft se fp ar pc dam sam =>
    simp only [exec, execFcfEnc, effect]
    cases encodeFcf (fcfOperands ft se fp ar pc dam sam) <;> rfl
  | build w v pad seq =>
    simp only [exec, effect]
    cases hb : buildError w v pad seq s.spb with
    | some e => simp only [execBuild, hb, Effect.run_error]
    | none => exact execBuild_of_legal w v pad seq s ((buildError_eq_none_iff ..).1 hb)
  | padCalc imm16 =>
    simp only [exec, execPadCalc, effect]
    split <;> rfl
  | dinWr addr8 data8 =>
    have hwrite := memWrite_ok .din s addr8.toNat [data8]
      (by simp only [List.length_singleton]; omega)
    simp only [exec, execDinWr, hwrite, orFault_ok, effect, Effect.run_ok, Update.apply]
  | dinRd imm8 => simp only [exec, execDinRd, memRead_addr8, orFault_ok]; rfl
  | foutRd imm8 => simp only [exec, execFoutRd, memRead_addr8, orFault_ok]; rfl
  | regRd imm8 =>
    simp only [exec, execRegRd, effect]
    cases regOf imm8 <;> rfl

/-- What a command word does: the effect of its command, or its decode error (R102). -/
def wordEffect (cmd : Word) (s : State) : Effect :=
  match decode cmd with
  | .ok i => effect i s
  | .error e => .error (codeOfDecodeError e) 0#4

theorem execWord_eq (cmd : Word) (s : State) : execWord cmd s = .next ((wordEffect cmd s).run s) := by
  unfold execWord wordEffect
  cases decode cmd with
  | ok i => exact exec_eq i s
  | error e => rfl

/-! ## What an effect can be -/

theorem mem_allOpcodes (op : Opcode) : op ∈ allOpcodes := by cases op <;> decide

/-- R33, R70: a command writes only what it is listed for. -/
theorem opcode_mem_writers (i : Instr) (s : State) : i.opcode ∈ (effect i s).update.writers := by
  cases i <;> simp only [effect]
  case cfgSpb | fcfEnc | build | padCalc | regRd =>
    split <;> simp [Effect.ok, Effect.error, Update.writers, Instr.opcode, mem_allOpcodes]
  all_goals simp [Effect.ok, Update.writers, Instr.opcode, mem_allOpcodes]

theorem fcfOverflow_bounds (f : FcfFields) (index : BitVec 4) (h : fcfOverflow f = some index) :
    1 ≤ index.toNat ∧ index.toNat ≤ 7 := by
  unfold fcfOverflow at h
  split_ifs at h <;> cases h <;> decide

theorem encodeFcf_error_bounds (f : FcfFields) (index : BitVec 4) (h : encodeFcf f = .error index) :
    1 ≤ index.toNat ∧ index.toNat ≤ 7 := by
  unfold encodeFcf at h
  split at h
  next hk =>
    cases h
    exact fcfOverflow_bounds f _ hk
  next => cases h

/-- R37: the unused bits of FDEC are 0 in every value that FCF_DEC writes. -/
theorem packFdec_decodeFcf_unused (v : BitVec 16) :
    packFdec (decodeFcf v) &&& 0x24AA8#18 = 0#18 := by
  ext i hi
  simp only [packFdec, decodeFcf, BitVec.ofNat_toNat]
  interval_cases i <;> simp

theorem buildError_ne_errFcfOverflow (w : BitVec 8) (v : BitVec 5) (pad : BitVec 1) (seq : BitVec 9)
    (spb : BitVec 8) (e : StatusCode) (h : buildError w v pad seq spb = some e) :
    e ≠ .errFcfOverflow := by
  rw [buildError_eq] at h
  split_ifs at h <;> cases h <;> decide

/-- Every command's effect is legal, in every state. -/
theorem effect_legal (i : Instr) (s : State) : (effect i s).Legal := by
  cases i <;> simp only [effect]
  case fcfEnc ft se fp ar pc dam sam =>
    split
    next index h => exact ⟨trivial, fun _ => encodeFcf_error_bounds _ index h⟩
    next => exact Effect.legal_ok _ trivial
  case fcfDec => exact Effect.legal_ok _ (packFdec_decodeFcf_unused s.fcf)
  case build w v pad seq =>
    split
    next e h => exact Effect.legal_error _ (buildError_ne_errFcfOverflow w v pad seq s.spb e h)
    next h =>
      exact Effect.legal_ok _
        (legalFrame_builtFrame w v pad seq s ((buildError_eq_none_iff ..).1 h))
  case padCalc imm16 =>
    split
    next => exact Effect.legal_error _ (by decide)
    next h =>
      have hpad := paddingBytes_lt_sixteen imm16.toNat s.spb.toNat (toNat_pos_of_ne_zero h)
      refine Effect.legal_ok _ ?_
      simp only [Update.Legal, BitVec.toNat_ofNat]
      omega
  case cfgSpb imm8 =>
    split
    next => exact Effect.legal_error _ (by decide)
    next => exact Effect.legal_ok _ trivial
  case regRd imm8 =>
    split
    next => exact Effect.legal_ok _ trivial
    next => exact Effect.legal_error _ (by decide)
  all_goals exact Effect.legal_ok _ trivial

theorem wordEffect_legal (cmd : Word) (s : State) : (wordEffect cmd s).Legal := by
  unfold wordEffect
  cases decode cmd with
  | ok i => exact effect_legal i s
  | error e => exact Effect.legal_error _ (by cases e <;> decide)

/-- A read of DIN inside the space depends on the tuple alone. -/
theorem readBytes_din_of_sameTuple {s s' : State} (h : SameTuple s s') (a n : Nat)
    (hn : a + n ≤ 256) : s.readBytes .din a n = s'.readBytes .din a n := by
  obtain ⟨-, -, -, -, -, -, -, -, hbytes⟩ := (sameTuple_iff s s').1 h
  exact readBytes_congr .din s s' a n fun b _ hb => hbytes .din b (by omega)

/-- R47: what a command does depends on the tuple alone. -/
theorem effect_congr (i : Instr) {s s' : State} (h : SameTuple s s') : effect i s = effect i s' := by
  obtain ⟨hstatus, hcrc, hfcf, hfdec, hspb, hsfd, hflen, hpadn, hbytes⟩ := (sameTuple_iff s s').1 h
  cases i with
  | nop | cfgSpb | cfgSfd | clrErr | crcInit | crctRd | fcfEnc | fcfLoad | dinWr => rfl
  | crcByte | crcByteS => simp only [effect, hcrc]
  | fcfDec => simp only [effect, hfcf]
  | padCalc => simp only [effect, hspb]
  | dinRd imm8 => simp only [effect, hbytes .din imm8.toNat (by omega)]
  | foutRd imm8 => simp only [effect, hbytes .fout imm8.toNat (by omega)]
  | regRd imm8 =>
    have hread : s.readReg = s'.readReg := by
      funext r
      cases r <;>
        simp only [State.readReg, State.bmod, hstatus, hcrc, hfcf, hfdec, hspb, hsfd, hflen, hpadn]
    simp only [effect, hread]
  | build w v pad seq =>
    simp only [effect, hspb]
    split
    next => rfl
    next hb =>
      obtain ⟨-, hv, hvw, -⟩ := (buildError_eq_none_iff ..).1 hb
      have hframe : builtFrame w v pad seq s = builtFrame w v pad seq s' := by
        simp only [builtFrame, hfcf, hspb, hsfd,
          readBytes_din_of_sameTuple h 0 v.toNat (by omega),
          readBytes_din_of_sameTuple h v.toNat w.toNat (by omega)]
      rw [hframe]

theorem wordEffect_congr (cmd : Word) {s s' : State} (h : SameTuple s s') :
    wordEffect cmd s = wordEffect cmd s' := by
  unfold wordEffect
  cases decode cmd with
  | ok i => exact effect_congr i h
  | error e => rfl

/-! ## Invariants of a step -/

/-- A property that does not speak of the inputs to come, that every command word keeps and that holds
after every reset is kept by every step. -/
theorem step_keeps (P : State → Prop) (hinputs : ∀ s rest, P s → P { s with inputs := rest })
    (hword : ∀ cmd s, P s → P ((wordEffect cmd s).run s)) (hreset : ∀ s, P (takeReset s))
    (s t : State) (hs : P s) (hstep : step s = .next t) : P t := by
  obtain ⟨-, rfl⟩ | ⟨cmd, rest, -, hexec⟩ | ⟨rest, -, rfl⟩ | ⟨cmd, rest, -, rfl⟩ :=
    step_cases s t hstep
  · exact hs
  · rw [execWord_eq] at hexec
    cases hexec
    exact hword cmd _ (hinputs s rest hs)
  · exact hreset _
  · exact hreset _

/-- The status update leaves a legal STATUS, whatever STATUS was (R34, R300). -/
theorem legalStatus_statusAfter (st : BitVec 17) (c : StatusCode) (f : BitVec 4)
    (hf : c = .errFcfOverflow → 1 ≤ f.toNat ∧ f.toNat ≤ 7) : LegalStatus (statusAfter st c f) := by
  have hcode : (statusAfter st c f).extractLsb' 0 8 = c.bits := statusCode_statusAfter st c f
  have hfield : (statusAfter st c f).extractLsb' 8 4 = if c = .errFcfOverflow then f else 0#4 :=
    statusField_statusAfter st c f
  have hsticky : (statusAfter st c f).getLsbD 16 = (statusSticky st || decide (c ≠ .ok)) :=
    statusSticky_statusAfter st c f
  refine ⟨packStatus_reserved .., ?_⟩
  rw [hcode, hfield, hsticky]
  by_cases h : c = .errFcfOverflow
  · subst h
    simpa [StatusCode.bits] using hf rfl
  · cases c <;> simp [StatusCode.bits] at h ⊢

theorem Effect.run_legalMemories (e : Effect) (s : State) (he : e.Legal) (hs : LegalMemories s) :
    LegalMemories (e.run s) := by
  obtain ⟨hdin, hfout⟩ := e.update.addr_add_length_le he.1
  obtain ⟨hwfDin, hwfFout, hbelow⟩ := hs
  refine ⟨?_, ?_, ?_⟩
  · rw [← mem_din, run_mem]
    exact Memory.wf_writeBytes .din _ _ _ hdin hwfDin
  · rw [← mem_fout, run_mem]
    exact Memory.wf_writeBytes .fout _ _ _ (by simp only [Config.memSize]; omega) hwfFout
  · rw [← mem_fout, run_mem]
    exact Memory.below_writeBytes _ _ _ _ hfout hbelow

theorem Effect.run_legalResults (e : Effect) (s : State) (he : e.Legal) (hs : LegalResults s) :
    LegalResults (e.run s) := by
  obtain ⟨u, c, f, d⟩ := e
  obtain ⟨hu, -⟩ := he
  obtain ⟨hfdec, hpadn, hflen⟩ := hs
  cases u with
  | fdec v => exact ⟨hu, hpadn, hflen⟩
  | padn v => exact ⟨hfdec, hu, hflen⟩
  | frame f =>
    have hlen := LegalFrame.length_bounds hu
    have hmod : (BitVec.ofNat 8 f.length).toNat = f.length := by
      rw [BitVec.toNat_ofNat]; omega
    exact ⟨hfdec, hpadn, .inr (hmod ▸ hlen)⟩
  | _ => exact ⟨hfdec, hpadn, hflen⟩

theorem Effect.run_legalState (e : Effect) (s : State) (he : e.Legal) (hs : LegalState s) :
    LegalState (e.run s) := by
  obtain ⟨hmem, -, hres⟩ := hs
  exact ⟨e.run_legalMemories s he hmem, legalStatus_statusAfter _ _ _ he.2,
    e.run_legalResults s he hres⟩

theorem takeReset_legalState (s : State) : LegalState (takeReset s) := by
  simp only [LegalState, LegalMemories, LegalResults, takeReset_din, takeReset_fout,
    takeReset_status, takeReset_fdec, takeReset_padn, takeReset_flen]
  decide

/-- The frame invariant depends only on FLEN and the bytes of FOUT. -/
theorem foutHoldsFrame_congr {s t : State} (hs : FoutHoldsFrame s) (hflen : t.flen = s.flen)
    (hfout : ∀ a, t.readByte .fout a = s.readByte .fout a) : FoutHoldsFrame t := by
  have hread (n : Nat) : t.readBytes .fout 0 n = s.readBytes .fout 0 n :=
    readBytes_congr .fout t s 0 n fun b _ _ => hfout b
  simpa only [FoutHoldsFrame, hflen, hread] using hs

/-- The bytes of FOUT after a frame is written at its start are the frame. -/
theorem Update.readBytes_apply_frame (f : List Byte) (s : State) :
    ((Update.frame f).apply s).readBytes .fout 0 f.length = f := by
  refine List.ext_getElem? fun k => ?_
  rw [readBytes_getElem?]
  split
  next hk => simp [Update.readByte_apply, Update.addr, Update.bytes, hk]
  next hk => rw [List.getElem?_eq_none (by omega)]

theorem Update.apply_foutHoldsFrame (u : Update) (s : State) (hu : u.Legal)
    (hs : FoutHoldsFrame s) : FoutHoldsFrame (u.apply s) := by
  cases u with
  | frame f =>
    have hlen := LegalFrame.length_bounds hu
    obtain ⟨fcf, seq, addr, payload, pad, spb, sfd, haddr, hsum, hpad, hf⟩ := hu
    have hmod : ((Update.frame f).apply s).flen.toNat = f.length := by
      simp only [Update.apply, BitVec.toNat_ofNat]
      omega
    refine .inr ⟨fcf, seq, addr, payload, pad, spb, sfd, haddr, hsum, hpad, ?_, ?_⟩
    · rw [hmod, hf]
    · rw [hmod, readBytes_apply_frame, hf]
  | dinByte addr8 data8 =>
    exact foutHoldsFrame_congr hs rfl fun a => by
      rw [readByte_apply]
      exact if_neg (by simp [addr, bytes])
  | _ => exact foutHoldsFrame_congr hs rfl fun _ => rfl

theorem Effect.run_foutHoldsFrame (e : Effect) (s : State) (he : e.Legal)
    (hs : FoutHoldsFrame s) : FoutHoldsFrame (e.run s) :=
  foutHoldsFrame_congr (e.update.apply_foutHoldsFrame s he.1 hs) rfl fun _ => readByte_finish ..

/-! ## Bytes not written since reset -/

/-- A byte that a memory does not list after a write was not listed before. -/
theorem Memory.get?_eq_none_of_writeBytes (m : Memory) (a b : Nat) (xs : List Byte)
    (h : Memory.get? (Memory.writeBytes m a xs) b = none) : Memory.get? m b = none := by
  rw [Memory.get?_writeBytes] at h
  split at h
  next hb =>
    have hlen := List.getElem?_eq_none_iff.1 h
    omega
  next => exact h

/-- A byte not written since reset reads as the draw of that reset (R44, R402). -/
theorem readByte_of_get?_eq_none (sp : Space) (s : State) (a : Nat)
    (h : Memory.get? (s.mem sp) a = none) : s.readByte sp a = Config.resetByte sp s.draws a := by
  simp only [State.readByte, h]

/-! ## The tuple -/

/-- A state and the state made of its tuple stand for the same tuple. -/
theorem sameTuple_toState_tuple (s : State) : SameTuple s s.tuple.toState := (tuple_toState _).symm

/-- R47: the block executes a command word on a tuple as the machine does on any state with that
tuple. -/
theorem tuple_command_eq (cmd : Word) (s : State) :
    s.tuple.command cmd = .next (((wordEffect cmd s).run s).tuple, (wordEffect cmd s).response) := by
  have hsame := sameTuple_toState_tuple s
  have heffect := wordEffect_congr cmd hsame
  have htuple : ((wordEffect cmd s).run s.tuple.toState).tuple = ((wordEffect cmd s).run s).tuple :=
    ((wordEffect cmd s).run_sameTuple hsame).symm
  have hresp : s.tuple.toState.responses = [] := rfl
  simp only [Tuple.command, execWord_eq, ← heffect, htuple, Effect.run_responses, hresp,
    List.nil_append, onlyResponse, List.headD_cons]

theorem takeReset_tuple (s : State) :
    (takeReset s).tuple = Tuple.reset (Vector.ofFn fun a => Config.resetByte .din (s.draws + 1) a)
      (Vector.ofFn fun a => Config.resetByte .fout (s.draws + 1) a) := rfl

theorem step_command (s : State) (cmd : Word) (rest : List Input)
    (h : s.inputs = .command cmd :: rest) :
    step s = .next ((wordEffect cmd { s with inputs := rest }).run { s with inputs := rest }) := by
  simp only [step, h, takeInput, execWord_eq]

theorem step_reset (s : State) (rest : List Input)
    (h : s.inputs = .reset :: rest ∨ ∃ cmd, s.inputs = .resetDuring cmd :: rest) :
    step s = .next (takeReset { s with inputs := rest }) := by
  obtain h | ⟨cmd, h⟩ := h <;> simp only [step, h, takeInput]

/-! ## The statements -/

/-- Settles O18: every effect is legal, and a legal effect keeps a legal state. -/
theorem everyStepKeepsLegalState : Obligations.EveryStepKeepsLegalState :=
  step_keeps LegalState (fun _ _ hs => hs)
    (fun cmd s hs => (wordEffect cmd s).run_legalState s (wordEffect_legal cmd s) hs)
    takeReset_legalState

/-- Settles O20: only BUILD writes FOUT or FLEN, and what it writes is a frame and its length. -/
theorem everyStepKeepsAFrameInFout : Obligations.EveryStepKeepsAFrameInFout :=
  step_keeps FoutHoldsFrame (fun _ _ hs => foutHoldsFrame_congr hs rfl fun _ => rfl)
    (fun cmd s hs => (wordEffect cmd s).run_foutHoldsFrame s (wordEffect_legal cmd s) hs)
    (fun _ => .inl rfl)

/-- Settles O12: a command makes one write, and it is one that R33 lists for the command. -/
theorem registersChangeOnlyByTheirCommands : Obligations.RegistersChangeOnlyByTheirCommands := by
  intro i s t h
  rw [exec_eq] at h
  cases h
  exact (effect i s).update.apply_registers s i.opcode (opcode_mem_writers i s)

/-- Settles O17: a command only adds to the bytes listed, and leaves the draw. -/
theorem unwrittenBytesKeepTheirResetContent : Obligations.UnwrittenBytesKeepTheirResetContent := by
  intro s t cmd rest hin hstep sp a hnone
  rw [step_command s cmd rest hin] at hstep
  cases hstep
  have hbefore : Memory.get? (s.mem sp) a = none := by
    rw [Effect.run_mem] at hnone
    exact Memory.get?_eq_none_of_writeBytes _ _ _ _ hnone
  refine ⟨hbefore, ?_⟩
  rw [readByte_of_get?_eq_none sp _ a hnone, readByte_of_get?_eq_none sp s a hbefore,
    Effect.run_draws]

/-- Settles O58: the effect of a command is fixed by the tuple, and so is what it leaves. -/
theorem commandsDependOnlyOnTheTuple : Obligations.CommandsDependOnlyOnTheTuple := by
  intro i s s' h
  refine ⟨(effect i s).run s, (effect i s).run s', (effect i s).response, exec_eq i s, ?_,
    (effect i s).run_sameTuple h, Effect.run_responses .., Effect.run_responses ..,
    Effect.run_draws .., Effect.run_inputs ..⟩
  rw [exec_eq, effect_congr i h]

/-- Settles O60: the tuple fixes the effect of a word, and reset leaves nothing else in the tuple. -/
theorem stepRunsTheBlockOnItsTuple : Obligations.StepRunsTheBlockOnItsTuple := by
  refine ⟨tuple_toState, ?_, ?_⟩
  · intro s cmd rest hin
    exact ⟨_, _, step_command s cmd rest hin, tuple_command_eq cmd { s with inputs := rest },
      Effect.run_responses ..⟩
  · intro s rest hin
    exact ⟨_, step_reset s rest hin, rfl, takeReset_tuple { s with inputs := rest }⟩

/-- Settles O21, by the first case of the invariant. -/
theorem resetStateHoldsNoFrame : Obligations.ResetStateHoldsNoFrame := ⟨rfl, .inl rfl⟩

end Sys2Proof.Machine

/-! SUPPORT. Proofs for the statements about the memories (spec/20_memory.md). A command's one write
(`Update`) says which bytes of DIN and FOUT it touches, and the statements follow from the effect of
each command (`exec_eq`). -/

namespace Sys2Proof.Machine

open Sys2Proof.Safety

/-! ## Bytes read after a write -/

/-- A write of no byte of a space leaves every byte of that space. -/
theorem Update.readByte_apply_of_bytes_eq_nil (u : Update) (s : State) (sp : Space)
    (h : u.bytes sp = []) (a : Nat) : (u.apply s).readByte sp a = s.readByte sp a := by
  rw [readByte_apply, h, List.length_nil]
  exact if_neg (by omega)

/-- R70: a write of a byte of DIN is DIN_WR's, and a write of a byte of FOUT is BUILD's. -/
theorem Update.bytes_eq_nil (u : Update) (op : Opcode) (h : op ∈ u.writers) :
    (op ≠ .dinWr → u.bytes .din = []) ∧ (op ≠ .build → u.bytes .fout = []) := by
  cases u with
  | dinByte addr8 data8 => exact ⟨fun hop => absurd (List.mem_singleton.1 h) hop, fun _ => rfl⟩
  | frame f => exact ⟨fun _ => rfl, fun hop => absurd (List.mem_singleton.1 h) hop⟩
  | _ => exact ⟨fun _ => rfl, fun _ => rfl⟩

/-- Writing the byte that DIN reads at an address changes no read, in either space (R75). -/
theorem Update.readByte_apply_dinByte_stored (addr8 : BitVec 8) (s : State) (sp : Space) (a : Nat) :
    ((Update.dinByte addr8 (s.readByte .din addr8.toNat)).apply s).readByte sp a =
      s.readByte sp a := by
  cases sp with
  | fout => exact readByte_apply_of_bytes_eq_nil _ s .fout rfl a
  | din =>
    rw [readByte_apply]
    split
    next ha =>
      simp only [addr, bytes, List.length_singleton] at ha ⊢
      obtain rfl : a = addr8.toNat := by omega
      simp
    next => rfl

/-- A byte read after a frame is written to FOUT is the frame's byte there. -/
theorem Update.readByte_apply_frame (f : List Byte) (s : State) (a : Nat) (ha : a < f.length) :
    ((Update.frame f).apply s).readByte .fout a = f.getD a 0#8 := by
  rw [readByte_apply]
  exact if_pos (by simpa [addr, bytes] using ha)

/-- The end of a command leaves the bytes as its write left them. -/
@[simp] theorem Effect.readByte_run (e : Effect) (s : State) (sp : Space) (a : Nat) :
    (e.run s).readByte sp a = (e.update.apply s).readByte sp a := readByte_finish ..

/-! ## What BUILD reads -/

/-- R80: the frame is made of FCF, SFD, SPB and DIN[0..V+W-1] alone. -/
theorem builtFrame_congr (w : BitVec 8) (v : BitVec 5) (pad : BitVec 1) (seq : BitVec 9)
    {s s' : State} (h : SameBuildInputs v.toNat w.toNat s s') :
    builtFrame w v pad seq s = builtFrame w v pad seq s' := by
  obtain ⟨hfcf, hsfd, hspb, hdin⟩ := h
  have haddr : s.readBytes .din 0 v.toNat = s'.readBytes .din 0 v.toNat :=
    readBytes_congr .din s s' 0 v.toNat fun a _ _ => hdin a (by omega)
  have hpayload : s.readBytes .din v.toNat w.toNat = s'.readBytes .din v.toNat w.toNat :=
    readBytes_congr .din s s' v.toNat w.toNat fun a _ ha => hdin a ha
  simp only [builtFrame, hfcf, hsfd, hspb, haddr, hpayload]

/-- What BUILD does, accepted or refused, depends on its inputs alone. -/
theorem effect_build_congr (w : BitVec 8) (v : BitVec 5) (pad : BitVec 1) (seq : BitVec 9)
    {s s' : State} (h : SameBuildInputs v.toNat w.toNat s s') :
    effect (.build w v pad seq) s = effect (.build w v pad seq) s' := by
  have hframe := builtFrame_congr w v pad seq h
  obtain ⟨-, -, hspb, -⟩ := h
  simp only [effect, hspb, hframe]

/-- An accepted BUILD writes its frame and answers the frame's length (R206). -/
theorem effect_build_of_legal (w : BitVec 8) (v : BitVec 5) (pad : BitVec 1) (seq : BitVec 9)
    (s : State) (h : LegalBuild w v pad seq s.spb) :
    effect (.build w v pad seq) s =
      .ok (.frame (builtFrame w v pad seq s)) (wordOfNat (builtFrame w v pad seq s).length) := by
  simp only [effect, (buildError_eq_none_iff w v pad seq s.spb).2 h]

/-! ## The statements -/

/-- Settles O13: a command makes one write, and it touches DIN only for DIN_WR, FOUT only for
BUILD. -/
theorem memoriesChangeOnlyByTheirCommands : Obligations.MemoriesChangeOnlyByTheirCommands := by
  intro i s t h
  rw [exec_eq] at h
  cases h
  obtain ⟨hdin, hfout⟩ := (effect i s).update.bytes_eq_nil i.opcode (opcode_mem_writers i s)
  simp only [Effect.readByte_run]
  exact ⟨fun hop => Update.readByte_apply_of_bytes_eq_nil _ s .din (hdin hop),
    fun hop => Update.readByte_apply_of_bytes_eq_nil _ s .fout (hfout hop)⟩

/-- Settles O54: the two states give BUILD one effect, which writes the same frame in both. -/
theorem frameDependsOnlyOnTheBuildInputs : Obligations.FrameDependsOnlyOnTheBuildInputs := by
  intro w v pad seq s s' hlegal hsame
  have hexec := exec_eq (.build w v pad seq) s
  have hexec' := exec_eq (.build w v pad seq) s'
  rw [← effect_build_congr w v pad seq hsame] at hexec'
  rw [effect_build_of_legal w v pad seq s hlegal] at hexec hexec'
  refine ⟨_, _, _, hexec, hexec', rfl, Effect.run_responses .., Effect.run_responses .., ?_⟩
  intro a ha
  have hlt : a < (builtFrame w v pad seq s).length :=
    ha.trans_le (BitVec.toNat_ofNat _ 8 ▸ Nat.mod_le _ _)
  simp only [Effect.readByte_run, Effect.ok, Update.readByte_apply_frame _ _ a hlt]

/-- Settles O59: the write changes no read, and only the status update is left (R254, R300). -/
theorem writingTheStoredByteKeepsTheTuple : Obligations.WritingTheStoredByteKeepsTheTuple := by
  intro addr8 s
  refine ⟨_, exec_eq _ s, (sameTuple_iff _ _).2
    ⟨statusAfter_ok s.status 0#4, rfl, rfl, rfl, rfl, rfl, rfl, rfl, fun sp a _ => ?_⟩⟩
  exact (Effect.readByte_run ..).trans (Update.readByte_apply_dinByte_stored addr8 s sp a)

end Sys2Proof.Machine

/-! SUPPORT. Proofs for the statements about decoding and encoding (spec/30_encoding.md R100 to
R109). A word is three fields: the opcode number, the reserved bits, the operand bits. `word_ext`
says that they fix the word, and three lemmas say what they are in the word of a command. -/

namespace Sys2Proof

/-! ## The fields of a word -/

/-- Two words agree on the bits below `n + m` when they agree on those below `m` and on the `n` bits
from `m` on. -/
theorem extractLsb'_eq_of_split {x y : BitVec 32} (m n : Nat)
    (hlow : x.extractLsb' 0 m = y.extractLsb' 0 m) (hhigh : x.extractLsb' m n = y.extractLsb' m n) :
    x.extractLsb' 0 (n + m) = y.extractLsb' 0 (n + m) := by
  have hm := (Nat.zero_add m).symm
  rw [← BitVec.extractLsb'_append_extractLsb'_eq_extractLsb' hm, hlow, hhigh,
    BitVec.extractLsb'_append_extractLsb'_eq_extractLsb' hm]

/-- A word is its opcode number and its operand field (R100). -/
theorem word_eq_iff (x y : BitVec 32) :
    x = y ↔ x.extractLsb' 24 8 = y.extractLsb' 24 8 ∧ x.extractLsb' 0 24 = y.extractLsb' 0 24 := by
  constructor
  · rintro rfl
    exact ⟨rfl, rfl⟩
  · rintro ⟨hopc, hlow⟩
    simpa using extractLsb'_eq_of_split 24 8 hlow hopc

/-- The number of operand bits of a format that R101 does not reserve. They are the lowest ones. -/
def Format.operandWidth : Format → Nat
  | .n => 0
  | .i8 => 8
  | .i16 => 16
  | .a => 16
  | .f => 18
  | .b => 23

/-- R101: a reserved bit lies between the operands and the opcode. -/
theorem reservedMask_getLsbD (fmt : Format) (k : Nat) (hk : k < 32) :
    (reservedMask fmt).getLsbD k = decide (fmt.operandWidth ≤ k ∧ k < 24) := by
  revert k
  cases fmt <;> decide

/-- R101: a word sets no reserved bit exactly when the bits from the operands up to the opcode
are 0. -/
theorem and_reservedMask_eq_zero_iff (cmd : BitVec 32) (fmt : Format) :
    cmd &&& reservedMask fmt = 0#32 ↔
      cmd.extractLsb' fmt.operandWidth (24 - fmt.operandWidth) = 0#(24 - fmt.operandWidth) := by
  constructor
  · intro h
    ext k hk
    have hbit := congrArg (fun v => v.getLsbD (fmt.operandWidth + k)) h
    have hin : fmt.operandWidth ≤ fmt.operandWidth + k ∧ fmt.operandWidth + k < 24 := by omega
    have hmask := reservedMask_getLsbD fmt (fmt.operandWidth + k) (by omega)
    simpa [hmask, hin] using hbit
  · intro h
    ext k hk
    rw [BitVec.getElem_and, ← BitVec.getLsbD_eq_getElem, ← BitVec.getLsbD_eq_getElem,
      reservedMask_getLsbD fmt k hk]
    by_cases hin : fmt.operandWidth ≤ k ∧ k < 24
    · have hbit := congrArg (fun v => v.getLsbD (k - fmt.operandWidth)) h
      have hlt : k - fmt.operandWidth < 24 - fmt.operandWidth := by omega
      simpa [hin, hlt] using hbit
    · simp [hin]

/-- The operands of a command are all its operand bits: none is dropped (R101, R105 to R107). -/
theorem operand_bits_eq_of_operands_eq (op : Opcode) {x y : BitVec 32}
    (h : op.operands x = op.operands y) :
    x.extractLsb' 0 op.format.operandWidth = y.extractLsb' 0 op.format.operandWidth := by
  cases op
  case nop | clrErr | fcfDec => exact BitVec.eq_of_zero_length rfl
  case fcfEnc =>
    obtain ⟨hft, hse, hfp, har, hpc, hdam, hsam⟩ := Instr.fcfEnc.inj h
    have h6 := extractLsb'_eq_of_split 4 2 hft hse
    have h8 := extractLsb'_eq_of_split 6 2 h6 hfp
    have h10 := extractLsb'_eq_of_split 8 2 h8 har
    have h12 := extractLsb'_eq_of_split 10 2 h10 hpc
    have h15 := extractLsb'_eq_of_split 12 3 h12 hdam
    exact extractLsb'_eq_of_split 15 3 h15 hsam
  case build =>
    obtain ⟨hw, hv, hpad, hseq⟩ := Instr.build.inj h
    have h13 := extractLsb'_eq_of_split 8 5 hw hv
    have h14 := extractLsb'_eq_of_split 13 1 h13 hpad
    exact extractLsb'_eq_of_split 14 9 h14 hseq
  case dinWr =>
    obtain ⟨haddr, hdata⟩ := Instr.dinWr.inj h
    exact extractLsb'_eq_of_split 8 8 hdata haddr
  all_goals injection h

/-- A word without reserved bits is fixed by its opcode number and its operands. -/
theorem word_ext (op : Opcode) {x y : BitVec 32}
    (hopc : x.extractLsb' 24 8 = y.extractLsb' 24 8)
    (hx : x &&& reservedMask op.format = 0#32) (hy : y &&& reservedMask op.format = 0#32)
    (hoperands : op.operands x = op.operands y) : x = y := by
  have hlow := operand_bits_eq_of_operands_eq op hoperands
  rw [and_reservedMask_eq_zero_iff] at hx hy
  have hle : op.format.operandWidth ≤ 24 := by cases op <;> decide
  have hfield := extractLsb'_eq_of_split _ _ hlow (hx.trans hy.symm)
  rw [Nat.sub_add_cancel hle] at hfield
  exact (word_eq_iff x y).2 ⟨hopc, hfield⟩

/-! ## The word of a command -/

/-- R108: the opcode number of a command's word. -/
theorem encode_opc (i : Instr) : (encode i).extractLsb' 24 8 = i.opcode.code := by
  cases i <;> simp (disch := omega) only [encode, BitVec.extractLsb'_append_eq_of_le] <;> rfl

/-- R103: the word of a command sets no reserved bit. -/
theorem encode_and_reservedMask (i : Instr) : encode i &&& reservedMask i.opcode.format = 0#32 := by
  rw [and_reservedMask_eq_zero_iff]
  cases i <;>
    simp (disch := omega) only [encode, Instr.opcode, Opcode.format, Format.operandWidth,
      BitVec.extractLsb'_append_eq_of_le, BitVec.extractLsb'_append_eq_of_add_le] <;>
    rfl

/-- R105 to R107: the operand fields of a command's word hold the command's operands. -/
theorem operands_encode (i : Instr) : i.opcode.operands (encode i) = i := by
  cases i <;>
    simp (disch := omega) only [encode, Instr.opcode, Opcode.operands, imm8Field, imm16Field,
      BitVec.extractLsb'_append_eq_of_le, BitVec.extractLsb'_append_eq_of_add_le, Nat.reduceSub,
      BitVec.extractLsb'_eq_self]

/-! ## Words that are commands, and words that are not -/

/-- R102: a word decodes to a command of an opcode exactly when it has the opcode's number and no
reserved bit set. -/
theorem exists_decode_iff (cmd : BitVec 32) (op : Opcode) :
    (∃ i, decode cmd = .ok i ∧ i.opcode = op) ↔
      cmd.extractLsb' 24 8 = op.code ∧ cmd &&& reservedMask op.format = 0#32 := by
  constructor
  · rintro ⟨i, hi, rfl⟩
    obtain ⟨op, hopc, hres, rfl⟩ := decode_eq_ok cmd i hi
    rw [opcode_operands]
    exact ⟨hopc, hres⟩
  · rintro ⟨hopc, hres⟩
    exact ⟨op.operands cmd, decode_of_fields cmd op hopc hres, opcode_operands op cmd⟩

/-- R108: every row's mask covers the opcode bits and the format's reserved bits, and its match bits
are the opcode number over an operand field of 0. -/
theorem opcodeTable_fields : ∀ row ∈ opcodeTable,
    row.mask.extractLsb' 24 8 = BitVec.allOnes 8 ∧
    row.mask.extractLsb' 0 24 = (reservedMask row.opcode.format).extractLsb' 0 24 ∧
    (reservedMask row.opcode.format).extractLsb' 24 8 = 0#8 ∧
    row.matchBits.extractLsb' 24 8 = row.opcode.code ∧
    row.matchBits.extractLsb' 0 24 = 0#24 := by decide

/-- R109: no opcode has an unassigned number. -/
theorem unassignedOpcode_code (op : Opcode) : Safety.unassignedOpcode op.code.toNat = false := by
  cases op <;> decide

theorem opcodeOf_of_unassigned (n : BitVec 8) (h : Safety.unassignedOpcode n.toNat = true) :
    opcodeOf n = none := by
  cases hop : opcodeOf n with
  | none => rfl
  | some op =>
    rw [← opcodeOf_eq_some n op hop, unassignedOpcode_code] at h
    exact absurd h Bool.false_ne_true

/-- R102: a word with an unassigned opcode number is illegal. -/
theorem decode_of_unassigned (cmd : BitVec 32)
    (h : Safety.unassignedOpcode (cmd.extractLsb' 24 8).toNat = true) :
    decode cmd = .error .illegal := by
  simp only [decode, opcField, opcodeOf_of_unassigned _ h]

end Sys2Proof

namespace Sys2Proof.Machine

open Sys2Proof.Safety

/-! ## Executing a word -/

theorem execWord_of_ok (cmd : Word) (s : State) (i : Instr) (h : decode cmd = .ok i) :
    execWord cmd s = exec i s := by
  simp only [execWord, h]

/-- R102: a word that is no command raises the status code of its decode error. -/
theorem execWord_of_error (cmd : Word) (s : State) (e : DecodeError) (h : decode cmd = .error e) :
    execWord cmd s = .next (afterError (codeOfDecodeError e).bits 0#4 s) := by
  have hne : codeOfDecodeError e ≠ .ok := by cases e <;> decide
  simp only [execWord, h, raise_eq_afterError _ _ s hne, ite_self]

/-- A step with a command word next executes that word on the state without it. -/
theorem step_eq_execWord (s : State) (cmd : Word) (rest : List Input)
    (h : s.inputs = .command cmd :: rest) : step s = execWord cmd { s with inputs := rest } := by
  simp only [step, h, takeInput]

/-! ## The statements -/

/-- Settles O1: the word of a command has its opcode's number, no reserved bit, and its operands. -/
theorem decodeOfEncodeIsTheCommand : Obligations.DecodeOfEncodeIsTheCommand := by
  intro i
  rw [decode_of_fields _ i.opcode (encode_opc i) (encode_and_reservedMask i), operands_encode]

/-- Settles O2: the word and the word of its command agree in opcode, reserved bits and operands. -/
theorem encodeOfDecodedWordIsTheWord : Obligations.EncodeOfDecodedWordIsTheWord := by
  intro cmd i h
  obtain ⟨op, hopc, hres, rfl⟩ := decode_eq_ok cmd i h
  have hword := encode_opc (op.operands cmd)
  have hmask := encode_and_reservedMask (op.operands cmd)
  have hoperands := operands_encode (op.operands cmd)
  rw [opcode_operands] at hword hmask hoperands
  exact word_ext op (hword.trans hopc.symm) hmask hres hoperands

/-- Settles O3: masked and match bits are compared in the opcode field and in the operand field. -/
theorem wordIsCommandWhenMaskedBitsMatch : Obligations.WordIsCommandWhenMaskedBitsMatch := by
  intro row hrow cmd
  obtain ⟨hopc, hlow, hres, hmatch, hzero⟩ := opcodeTable_fields row hrow
  rw [exists_decode_iff, word_eq_iff (cmd &&& row.mask), word_eq_iff (cmd &&& reservedMask _)]
  simp only [BitVec.extractLsb'_and, BitVec.extractLsb'_zero, hopc, hlow, hres, hmatch, hzero,
    BitVec.and_allOnes, BitVec.and_zero, true_and]

/-- Settles O4: the count is a closed fact, and an unassigned number is found under no opcode. -/
theorem unassignedOpcodesRaiseErrIllegal : Obligations.UnassignedOpcodesRaiseErrIllegal :=
  ⟨by decide +kernel, fun cmd s h => execWord_of_error cmd s .illegal (decode_of_unassigned cmd h)⟩

/-- Settles O5: seven fixed words, decoded. -/
theorem sampleWordsDecodeAsWritten : Obligations.SampleWordsDecodeAsWritten := by
  unfold Obligations.SampleWordsDecodeAsWritten
  decide

/-- Settles O6: the step executes the word, whose outcome is that of its decoding. -/
theorem stepExecutesTheDecodedWord : Obligations.StepExecutesTheDecodedWord := by
  intro s cmd rest hin
  rw [step_eq_execWord s cmd rest hin]
  exact ⟨execWord_of_ok cmd _, execWord_of_error cmd _ .illegal, execWord_of_error cmd _ .reserved⟩

end Sys2Proof.Machine

/-! SUPPORT. Proofs for the statements about the assembler (spec/30_encoding.md R112, R113). Every
list of commands completes (`execAll_eq`), so a pseudo-command's statement is about `runAll` of its
list, by induction on the bytes. -/

namespace Sys2Proof.Machine

open Sys2Proof.Safety

/-! ## The lines of the assembler -/

/-- Every command is well formed (R112). -/
theorem instr_wf (i : Instr) : i.wf = true := by
  cases i with
  | nop => exact Laws.WellFormed.nop
  | cfgSpb imm8 => exact Laws.WellFormed.cfgSpb imm8
  | cfgSfd imm8 => exact Laws.WellFormed.cfgSfd imm8
  | clrErr => exact Laws.WellFormed.clrErr
  | crcInit imm16 => exact Laws.WellFormed.crcInit imm16
  | crcByte imm8 => exact Laws.WellFormed.crcByte imm8
  | crcByteS imm8 => exact Laws.WellFormed.crcByteS imm8
  | crctRd imm8 => exact Laws.WellFormed.crctRd imm8
  | fcfEnc ft se fp ar pc dam sam => exact Laws.WellFormed.fcfEnc ft se fp ar pc dam sam
  | fcfLoad imm16 => exact Laws.WellFormed.fcfLoad imm16
  | fcfDec => exact Laws.WellFormed.fcfDec
  | build w v pad seq => exact Laws.WellFormed.build w v pad seq
  | padCalc imm16 => exact Laws.WellFormed.padCalc imm16
  | dinWr addr8 data8 => exact Laws.WellFormed.dinWr addr8 data8
  | dinRd imm8 => exact Laws.WellFormed.dinRd imm8
  | foutRd imm8 => exact Laws.WellFormed.foutRd imm8
  | regRd imm8 => exact Laws.WellFormed.regRd imm8

/-- A command's own line stands for that command: no operand loses a bit. -/
theorem expandLine_toAsm (i : Instr) : expandLine i.toAsm = [i] := by
  cases i <;> simp only [Instr.toAsm, expandLine, BitVec.ofNat_toNat, BitVec.setWidth_eq]

theorem assemble_of_wf {l : AsmLine} (h : l.wf = true) : assemble l = some (expandLine l) :=
  if_pos h

theorem fits_iff (w n : Nat) : fits w n = true ↔ n < 2 ^ w := decide_eq_true_iff

theorem all_fits_eight {bs : List Nat} (h : ∀ b ∈ bs, b < 256) : bs.all (fits 8) = true :=
  List.all_eq_true.2 fun b hb => (fits_iff 8 b).2 (h b hb)

/-! ## Commands one after another -/

/-- The state after a list of commands: their effects, one after another. -/
def runAll (is : List Instr) (s : State) : State := is.foldl (fun t i => (effect i t).run t) s

theorem runAll_cons (i : Instr) (is : List Instr) (s : State) :
    runAll (i :: is) s = runAll is ((effect i s).run s) := rfl

/-- Every list of commands completes. -/
theorem execAll_eq (is : List Instr) (s : State) : execAll is s = .next (runAll is s) := by
  induction is generalizing s with
  | nil => rfl
  | cons i is ih => simp only [execAll, exec_eq, ih, runAll_cons]

/-- CRC_BYTE commands fold their bytes into CRC (R143, R148). -/
theorem runAll_crcByteCommands_crc (bs : List Nat) (s : State) :
    (runAll (crcByteCommands bs) s).crc = crc16 (bs.map (BitVec.ofNat 8)) s.crc := by
  induction bs generalizing s with
  | nil => rfl
  | cons b bs ih => exact ih ((effect (.crcByte (BitVec.ofNat 8 b)) s).run s)

/-- What a DIN_WR leaves in DIN (R254). -/
theorem run_dinWr_din (addr8 data8 : BitVec 8) (s : State) :
    ((effect (.dinWr addr8 data8) s).run s).din = Memory.write s.din addr8.toNat data8 := rfl

/-- The DIN_WR commands of DIN_LOAD write the bytes to DIN at rising addresses and keep the draw
(R113, R254). -/
theorem runAll_dinWrites (a : Nat) (bs : List Nat) (s : State) (h : a + bs.length ≤ 256) :
    (runAll (dinWrites a bs) s).din = Memory.writeBytes s.din a (bs.map (BitVec.ofNat 8)) ∧
    (runAll (dinWrites a bs) s).draws = s.draws := by
  induction bs generalizing a s with
  | nil => exact ⟨rfl, rfl⟩
  | cons b bs ih =>
    rw [List.length_cons] at h
    have haddr : (BitVec.ofNat 8 a).toNat = a := by
      rw [BitVec.toNat_ofNat]
      omega
    have hfirst := run_dinWr_din (BitVec.ofNat 8 a) (BitVec.ofNat 8 b) s
    obtain ⟨hdin, hdraws⟩ := ih (a + 1)
      ((effect (.dinWr (BitVec.ofNat 8 a) (BitVec.ofNat 8 b)) s).run s) (by omega)
    rw [hfirst, haddr] at hdin
    exact ⟨hdin, hdraws⟩

/-- A byte of DIN read after the commands of DIN_LOAD is the one loaded there, or the one before. -/
theorem readByte_runAll_dinWrites (a : Nat) (bs : List Nat) (s : State) (h : a + bs.length ≤ 256)
    (k : Nat) :
    (runAll (dinWrites a bs) s).readByte .din k =
      if a ≤ k ∧ k < a + bs.length then (bs.map (BitVec.ofNat 8)).getD (k - a) 0#8
      else s.readByte .din k := by
  obtain ⟨hdin, hdraws⟩ := runAll_dinWrites a bs s h
  have hread := readByte_setMem_writeBytes .din .din s a k (bs.map (BitVec.ofNat 8))
  simp only [true_and, List.length_map] at hread
  rw [← hread]
  exact readByte_congr .din _ _ k hdin hdraws

/-! ## The statements -/

/-- Settles O55: the line is accepted because every operand fits its field, and expands to the
command. -/
theorem assemblerGivesTheCommandOfItsLine : Obligations.AssemblerGivesTheCommandOfItsLine := by
  intro i
  rw [assemble_of_wf (instr_wf i), expandLine_toAsm]

/-- Settles O56: CRC_INIT leaves the seed, and the CRC_BYTE commands fold the bytes into it. -/
theorem crc16PseudoCommandComputesTheCrc : Obligations.Crc16PseudoCommandComputesTheCrc := by
  intro seed bs s hseed hbs
  have hwf : (AsmLine.crc16 seed bs).wf = true :=
    Bool.and_eq_true_iff.2 ⟨(fits_iff 16 seed).2 hseed, all_fits_eight hbs⟩
  exact ⟨_, _, assemble_of_wf hwf, execAll_eq _ s, runAll_crcByteCommands_crc bs _⟩

/-- Settles O57: each byte read afterwards is the one loaded there, or the one before. -/
theorem dinLoadPseudoCommandLoadsTheBytes : Obligations.DinLoadPseudoCommandLoadsTheBytes := by
  intro a bs s ha hbs hlen
  have hwf : (AsmLine.dinLoad a bs).wf = true := by
    simp only [AsmLine.wf, Bool.and_eq_true, decide_eq_true_eq]
    exact ⟨⟨(fits_iff 8 a).2 ha, all_fits_eight hbs⟩, hlen⟩
  refine ⟨_, _, assemble_of_wf hwf, execAll_eq _ s, fun i b hi => ?_, fun k hk => ?_⟩
  · obtain ⟨hlt, rfl⟩ := List.getElem?_eq_some_iff.1 hi
    have hb := hbs _ (List.getElem_mem hlt)
    have hin : a ≤ a + i ∧ a + i < a + bs.length := by omega
    simp only [expandLine, readByte_runAll_dinWrites a bs s hlen, if_pos hin]
    simp [hlt, Nat.mod_eq_of_lt hb]
  · exact (readByte_runAll_dinWrites a bs s hlen k).trans (if_neg (by omega))

end Sys2Proof.Machine

/-! SUPPORT. Proofs for the statements about the CRC engine (spec/40_crc.md). Everything rests on
one fact: `crcShift` is linear over exclusive or. A byte step of either datapath is then eight
shifts of the register with the byte XORed into its low bits, and the flush of the augmented form
carries each `shl1` to one bit of the serial datapath. -/

namespace Sys2Proof.Machine

open Sys2Proof.Safety

/-! ## One shift of the register -/

/-- What one shift XORs in for the bit that leaves the register (R142, R145). -/
def crcTap (out : Bool) : BitVec 16 := if out then Config.crcPolyRefl else 0#16

theorem crcTap_xor (p q : Bool) : crcTap (p ^^ q) = crcTap p ^^^ crcTap q := by
  cases p <;> cases q <;> rfl

theorem xor_crcTap (x : BitVec 16) (out : Bool) :
    x ^^^ crcTap out = if out then x ^^^ Config.crcPolyRefl else x := by
  cases out with
  | false => exact BitVec.xor_zero
  | true => rfl

theorem crcShift_eq (c : BitVec 16) : crcShift c = (c >>> 1) ^^^ crcTap (c.getLsbD 0) :=
  (xor_crcTap (c >>> 1) (c.getLsbD 0)).symm

theorem crcShift_xor (x y : BitVec 16) : crcShift (x ^^^ y) = crcShift x ^^^ crcShift y := by
  simp only [crcShift_eq, BitVec.getLsbD_xor, crcTap_xor, BitVec.ushiftRight_xor_distrib]
  ac_rfl

/-- R145: one bit of the serial datapath is a shift, and the tap of the message bit. -/
theorem crcSerialBit_eq (b : BitVec 8) (v : BitVec 16) (k : Nat) :
    crcSerialBit b v k = crcShift v ^^^ crcTap (b.getLsbD k) := by
  calc crcSerialBit b v k
      = (v >>> 1) ^^^ crcTap (v.getLsbD 0 ^^ b.getLsbD k) := (xor_crcTap _ _).symm
    _ = crcShift v ^^^ crcTap (b.getLsbD k) := by rw [crcTap_xor, crcShift_eq, BitVec.xor_assoc]

/-! ## Several shifts of the register -/

theorem repeat_crcShift_add (m n : Nat) (v : BitVec 16) :
    Nat.repeat crcShift (m + n) v = Nat.repeat crcShift m (Nat.repeat crcShift n v) := by
  induction m with
  | zero => rw [Nat.zero_add]; rfl
  | succ m ih =>
    rw [Nat.succ_add]
    exact congrArg crcShift ih

theorem repeat_crcShift_xor (n : Nat) (x y : BitVec 16) :
    Nat.repeat crcShift n (x ^^^ y) = Nat.repeat crcShift n x ^^^ Nat.repeat crcShift n y := by
  induction n with
  | zero => rfl
  | succ n ih => simp only [Nat.repeat, ih, crcShift_xor]

/-- While only zeros leave the register, nothing is XORed in. -/
theorem repeat_crcShift_of_low_zero (n : Nat) (v : BitVec 16)
    (h : ∀ i < n, v.getLsbD i = false) : Nat.repeat crcShift n v = v >>> n := by
  induction n with
  | zero => rfl
  | succ n ih =>
    have hout : (v >>> n).getLsbD 0 = false := by simpa using h n (Nat.lt_succ_self n)
    calc Nat.repeat crcShift (n + 1) v
        = crcShift (v >>> n) := congrArg crcShift (ih fun i hi => h i (hi.trans n.lt_succ_self))
      _ = v >>> (n + 1) := by
        rw [crcShift_eq, hout, BitVec.shiftRight_add]
        exact BitVec.xor_zero

/-! ## A byte step of each datapath -/

theorem crcTable_eq_repeat (i : BitVec 8) : crcTable i = Nat.repeat crcShift 8 (zext16 i) := rfl

theorem getLsbD_zext16 (b : BitVec 8) (i : Nat) : (zext16 b).getLsbD i = b.getLsbD i := by
  have hlt : b.getLsbD i = true → i < 16 := fun h => (BitVec.lt_of_getLsbD h).trans (by decide)
  simpa [zext16, BitVec.getLsbD_setWidth] using hlt

theorem zext16_xor (a b : BitVec 8) : zext16 (a ^^^ b) = zext16 a ^^^ zext16 b :=
  BitVec.setWidth_xor

theorem zext16_ushiftRight (b : BitVec 8) (n : Nat) : zext16 b >>> n = zext16 (b >>> n) := by
  ext i hi
  simp [zext16]

/-- R142: eight shifts look the low byte up in the table and move the high byte down. -/
theorem repeat_crcShift_eight (v : BitVec 16) :
    Nat.repeat crcShift 8 v = crcTable (v.extractLsb' 0 8) ^^^ (v >>> 8) := by
  have hclear : Nat.repeat crcShift 8 (v ^^^ zext16 (v.extractLsb' 0 8)) = v >>> 8 := by
    rw [repeat_crcShift_of_low_zero _ _ fun i hi => by simp [getLsbD_zext16, hi],
      BitVec.ushiftRight_xor_distrib, zext16_ushiftRight,
      BitVec.ushiftRight_eq_zero (Nat.le_refl 8)]
    exact BitVec.xor_zero
  calc Nat.repeat crcShift 8 v
      = Nat.repeat crcShift 8
          (zext16 (v.extractLsb' 0 8) ^^^ (v ^^^ zext16 (v.extractLsb' 0 8))) := by
        rw [BitVec.xor_comm v, ← BitVec.xor_assoc, BitVec.xor_self, BitVec.zero_xor]
    _ = crcTable (v.extractLsb' 0 8) ^^^ (v >>> 8) := by
        rw [repeat_crcShift_xor, hclear, crcTable_eq_repeat]

theorem crcTable_xor (a b : BitVec 8) : crcTable (a ^^^ b) = crcTable a ^^^ crcTable b := by
  simp only [crcTable_eq_repeat, zext16_xor, repeat_crcShift_xor]

/-- R143: the table step is eight shifts, with the byte XORed into the register first. -/
theorem crcStep_eq_repeat (v : BitVec 16) (b : BitVec 8) :
    crcStep v b = Nat.repeat crcShift 8 (v ^^^ zext16 b) := by
  rw [repeat_crcShift_xor, repeat_crcShift_eight, ← crcTable_eq_repeat, crcStep, crcTable_xor]
  ac_rfl

/-- The lowest of the byte's bits still to come leaves a register that holds only those bits. -/
theorem crcShift_zext16 (b : BitVec 8) (n : Nat) :
    crcShift (zext16 (b >>> n)) = zext16 (b >>> (n + 1)) ^^^ crcTap (b.getLsbD n) := by
  have hshift : zext16 (b >>> n) >>> 1 = zext16 (b >>> (n + 1)) := by
    rw [zext16_ushiftRight, BitVec.shiftRight_add]
  have hout : (zext16 (b >>> n)).getLsbD 0 = b.getLsbD n := by
    rw [getLsbD_zext16, BitVec.getLsbD_ushiftRight, Nat.add_zero]
  rw [crcShift_eq, hshift, hout]

/-- After `n` bits the serial register is what the shifts make of the register with the byte XORed
in, without the bits of the byte still to come. -/
theorem foldl_crcSerialBit (b : BitVec 8) (v : BitVec 16) (n : Nat) :
    (List.range n).foldl (crcSerialBit b) v =
      Nat.repeat crcShift n (v ^^^ zext16 b) ^^^ zext16 (b >>> n) := by
  induction n with
  | zero => simp [Nat.repeat]
  | succ n ih =>
    rw [List.range_succ, List.foldl_append, ih]
    calc crcSerialBit b (Nat.repeat crcShift n (v ^^^ zext16 b) ^^^ zext16 (b >>> n)) n
        = crcShift (Nat.repeat crcShift n (v ^^^ zext16 b)) ^^^
            (zext16 (b >>> (n + 1)) ^^^ crcTap (b.getLsbD n)) ^^^ crcTap (b.getLsbD n) := by
          rw [crcSerialBit_eq, crcShift_xor, crcShift_zext16]
      _ = Nat.repeat crcShift (n + 1) (v ^^^ zext16 b) ^^^ zext16 (b >>> (n + 1)) := by
          simp only [BitVec.xor_assoc, BitVec.xor_self, BitVec.xor_zero, Nat.repeat]

/-- R146: the serial step is the table step. -/
theorem crcStepSerial_eq_crcStep (v : BitVec 16) (b : BitVec 8) :
    crcStepSerial v b = crcStep v b := by
  have hnone : zext16 (b >>> 8) = 0#16 := by
    rw [BitVec.ushiftRight_eq_zero (Nat.le_refl 8)]
    rfl
  rw [crcStep_eq_repeat, ← BitVec.xor_zero (x := Nat.repeat crcShift 8 _), ← hnone]
  exact foldl_crcSerialBit b v 8

theorem crcStep_xor (v v' : BitVec 16) (b b' : BitVec 8) :
    crcStep (v ^^^ v') (b ^^^ b') = crcStep v b ^^^ crcStep v' b' := by
  simp only [crcStep_eq_repeat, ← repeat_crcShift_xor, zext16_xor]
  congr 1
  ac_rfl

theorem crcTable_zero : crcTable 0#8 = 0#16 := by decide

/-- R146: an entry of the table is the step from 0. -/
theorem crcTable_eq_crcStep (i : BitVec 8) : crcTable i = crcStep 0#16 i := by
  simp [crcStep]

/-- R148: the byte that equals the low byte of the register shifts the register down. -/
theorem crcStep_lowByte (v : BitVec 16) : crcStep v (v.extractLsb' 0 8) = v >>> 8 := by
  rw [crcStep, BitVec.xor_self, crcTable_zero, BitVec.zero_xor]

/-! ## The augmented form -/

/-- The end of the augmented form: sixteen shifts that take in zeros, and the reversal (R152). -/
def augFlush (a : BitVec 16) : BitVec 16 := revBits (Nat.repeat (fun a => shl1 a false) 16 a)

theorem revBits_xor (x y : BitVec 16) : revBits (x ^^^ y) = revBits x ^^^ revBits y := by
  ext i hi
  simp [revBits, BitVec.getElem_reverse]

/-- R141: the reflected polynomial is the polynomial read backwards. -/
theorem revBits_crcPoly : revBits Config.crcPoly = Config.crcPolyRefl := by decide

/-- Read backwards, a left shift is a right shift that takes the bit in at the top. -/
theorem revBits_shiftLeft_or (a : BitVec 16) (bit : Bool) :
    revBits ((a <<< 1) ||| (BitVec.ofBool bit).setWidth 16) =
      (revBits a >>> 1) ^^^ (BitVec.ofBool bit ++ 0#15) := by
  ext i hi
  rw [← BitVec.getLsbD_eq_getElem, ← BitVec.getLsbD_eq_getElem, revBits, BitVec.getLsbD_reverse,
    BitVec.getLsbD_xor, BitVec.getLsbD_ushiftRight, BitVec.getLsbD_append, revBits,
    BitVec.getLsbD_reverse]
  by_cases h : i = 15
  · subst h
    simp [BitVec.getMsbD]
  · have hlt : i < 15 := by omega
    have hbit : 15 - i - 1 = 15 - (1 + i) := by omega
    have hne : 15 - i ≠ 0 := by omega
    have hbelow : 15 - i < 16 ∧ 15 - (1 + i) < 16 ∧ 1 + i < 16 := by omega
    simp [BitVec.getMsbD, hi, hlt, hbit, hne, hbelow]

/-- Read backwards, `shl1` shifts the reflected register and takes the bit in at the top. -/
theorem revBits_shl1 (a : BitVec 16) (bit : Bool) :
    revBits (shl1 a bit) = crcShift (revBits a) ^^^ (BitVec.ofBool bit ++ 0#15) := by
  have htop : (revBits a).getLsbD 0 = a.getLsbD 15 := by
    rw [revBits, BitVec.getLsbD_reverse]
    rfl
  rw [crcShift_eq, htop, BitVec.xor_assoc, BitVec.xor_comm (crcTap _), ← BitVec.xor_assoc,
    ← revBits_shiftLeft_or, xor_crcTap, shl1]
  split
  · rw [revBits_xor, revBits_crcPoly]
  · rfl

theorem revBits_repeat_shl1_false (n : Nat) (a : BitVec 16) :
    revBits (Nat.repeat (fun a => shl1 a false) n a) = Nat.repeat crcShift n (revBits a) := by
  induction n with
  | zero => rfl
  | succ n ih =>
    simp only [Nat.repeat, revBits_shl1, ih]
    exact BitVec.xor_zero

theorem augFlush_eq (a : BitVec 16) : augFlush a = Nat.repeat crcShift 16 (revBits a) :=
  revBits_repeat_shl1_false 16 a

/-- Sixteen shifts bring the top bit out of the register. -/
theorem repeat_crcShift_topBit (bit : Bool) :
    Nat.repeat crcShift 16 (BitVec.ofBool bit ++ 0#15) = crcTap bit := by
  cases bit <;> decide +kernel

/-- The flush carries `shl1` to one bit of the serial datapath. -/
theorem augFlush_shl1 (a : BitVec 16) (b : BitVec 8) (k : Nat) :
    augFlush (shl1 a (b.getLsbD k)) = crcSerialBit b (augFlush a) k := by
  have hcomm : Nat.repeat crcShift 16 (crcShift (revBits a)) = crcShift (augFlush a) := by
    rw [augFlush_eq]
    exact (repeat_crcShift_add 16 1 (revBits a)).symm.trans (repeat_crcShift_add 1 16 (revBits a))
  rw [augFlush_eq, revBits_shl1, repeat_crcShift_xor, hcomm, repeat_crcShift_topBit,
    crcSerialBit_eq]

/-- R152: the bits of the reversed byte, from bit 7 down, are the bits of the byte from bit 0 up. -/
theorem augByte_eq (a : BitVec 16) (b : BitVec 8) :
    augByte a b = [0, 1, 2, 3, 4, 5, 6, 7].foldl (fun a k => shl1 a (b.getLsbD k)) a := by
  simp [augByte, revBits, BitVec.getLsbD_reverse, BitVec.getMsbD]

/-- The flush carries a byte of the augmented form to a step of the serial datapath. -/
theorem augFlush_augByte (a : BitVec 16) (b : BitVec 8) :
    augFlush (augByte a b) = crcStepSerial (augFlush a) b := by
  rw [augByte_eq]
  exact (List.foldl_hom augFlush fun a k => (augFlush_shl1 a b k).symm).symm

/-- The flush carries the augmented form to crc16, from any register. -/
theorem augFlush_foldl_augByte (s : List Byte) (a : BitVec 16) :
    augFlush (s.foldl augByte a) = crc16 s (augFlush a) :=
  (List.foldl_hom augFlush fun a b => by
    rw [augFlush_augByte, crcStepSerial_eq_crcStep]).symm

/-! ## The commands -/

/-- A command whose effect is to complete leaves its update, and then what R300 says. -/
theorem exec_of_effect_ok {i : Instr} {s : State} (u : Update) (data : Word)
    (h : effect i s = .ok u data) : exec i s = .next (afterOk data (u.apply s)) := by
  rw [exec_eq, h, Effect.run_ok, complete_eq_afterOk]

/-- R102: the encoding of every command, from its opcode number and its format. -/
theorem encoding_of_opcode (op : Opcode) :
    Encoding op.code (reservedMask op.format) op.operands := fun cmd hopc =>
  ⟨decode_of_fields cmd op hopc,
    fun hres s => execWord_of_error cmd s .reserved (decode_of_reserved cmd op hopc hres)⟩

/-- The command that feeds a byte through the serial datapath or through the table. -/
def crcFeed (step : Bool × Byte) : Instr := if step.1 then .crcByteS step.2 else .crcByte step.2

/-- R146: both commands that feed a byte have the same effect. -/
theorem effect_crcFeed (step : Bool × Byte) (s : State) :
    effect (crcFeed step) s = effect (.crcByte step.2) s := by
  obtain ⟨serial, b⟩ := step
  cases serial with
  | false => rfl
  | true =>
    change effect (.crcByteS b) s = effect (.crcByte b) s
    simp only [effect, crcStepSerial_eq_crcStep]

theorem runAll_crcFeed_crc (steps : List (Bool × Byte)) (s : State) :
    (runAll (steps.map crcFeed) s).crc = crc16 (steps.map Prod.snd) s.crc := by
  induction steps generalizing s with
  | nil => rfl
  | cons p steps ih =>
    rw [List.map_cons, runAll_cons, effect_crcFeed]
    exact ih ((effect (.crcByte p.2) s).run s)

/-! ## The statements -/

/-- Settles O32: the effects are equal because the datapaths are (R146). -/
theorem crcByteSEqualsCrcByte : Obligations.CrcByteSEqualsCrcByte :=
  ⟨encoding_of_opcode .crcByteS, fun imm8 s =>
    ⟨exec_of_effect_ok (.crc _) _ rfl, by
      rw [exec_eq (.crcByte imm8), ← effect_crcFeed (true, imm8)]
      exact exec_eq (.crcByteS imm8) s⟩⟩

/-- Settles O34: the entries are eight shifts of the index, and shifts are linear. -/
theorem crcTableIsLinearWithListedGenerators : Obligations.CrcTableIsLinearWithListedGenerators :=
  ⟨crcTable_xor, by decide⟩

/-- Settles O35: both steps are eight shifts of the register with the byte XORed in. -/
theorem serialAndTableDatapathsAgree : Obligations.SerialAndTableDatapathsAgree := by
  refine ⟨crcStepSerial_eq_crcStep, fun steps seed => ?_, ?_, ?_⟩
  · simp only [crcStepSerial_eq_crcStep, ite_self, crc16, List.foldl_map]
  · simpa only [crcStepSerial_eq_crcStep] using crcTable_eq_crcStep
  · simpa only [crcStepSerial_eq_crcStep] using crcStep_xor

/-- Settles O36: each command has the effect of CRC_BYTE, by induction on the list. -/
theorem mixedCrcCommandsComputeCrc16 : Obligations.MixedCrcCommandsComputeCrc16 := fun steps s =>
  ⟨runAll (steps.map crcFeed) s, execAll_eq _ s, runAll_crcFeed_crc steps s⟩

/-- Settles O37: the flush carries the augmented form to crc16, and the register 0 to the seed 0. -/
theorem augmentedFormEqualsCrc16 : Obligations.AugmentedFormEqualsCrc16 := by
  intro s
  have hzero : augFlush 0#16 = 0#16 := by decide +kernel
  calc crc16Aug s = crc16 s (augFlush 0#16) := augFlush_foldl_augByte s 0#16
    _ = crc16 s 0#16 := by rw [hzero]

/-- Settles O39: each appended byte is the low byte of the register, so the two of them shift the
register out. -/
theorem appendingTheCrcLowByteFirstGivesZero :
    Obligations.AppendingTheCrcLowByteFirstGivesZero := by
  refine ⟨fun s v0 => ?_, by decide +kernel⟩
  generalize hc : crc16 s v0 = c
  have hhigh : c.extractLsb' 8 8 = (c >>> 8).extractLsb' 0 8 := by
    ext i hi
    simp
  calc crc16 (s ++ [c.extractLsb' 0 8, c.extractLsb' 8 8]) v0
      = crcStep (crcStep c (c.extractLsb' 0 8)) (c.extractLsb' 8 8) := by
        rw [← hc, crc16, List.foldl_append]
        rfl
    _ = (c >>> 8) >>> 8 := by rw [crcStep_lowByte, hhigh, crcStep_lowByte]
    _ = 0#16 := by rw [← BitVec.shiftRight_add, BitVec.ushiftRight_eq_zero (Nat.le_refl 16)]

/-- Settles O30: CRC_INIT writes its operand to CRC and completes with it. -/
theorem crcInitLoadsTheSeed : Obligations.CrcInitLoadsTheSeed :=
  ⟨encoding_of_opcode .crcInit, fun _ _ => exec_of_effect_ok (.crc _) _ rfl⟩

/-- Settles O31: CRC_BYTE writes the table step to CRC and completes with it. -/
theorem crcByteStepsThroughTheTable : Obligations.CrcByteStepsThroughTheTable :=
  ⟨encoding_of_opcode .crcByte, fun _ _ => exec_of_effect_ok (.crc _) _ rfl⟩

/-- Settles O33: CRCT_RD completes with the entry and writes nothing. -/
theorem crctRdReadsOneTableEntry : Obligations.CrctRdReadsOneTableEntry :=
  ⟨encoding_of_opcode .crctRd, fun _ _ => exec_of_effect_ok .keep _ rfl⟩

/-- Settles O38: a closed evaluation of R143. -/
theorem checkValueIs2189 : Obligations.CheckValueIs2189 := by
  unfold Obligations.CheckValueIs2189
  decide +kernel

end Sys2Proof.Machine

/-! SUPPORT. Proofs for the statements about the frame control field (spec/41_fcf.md). The check of
encode_fcf is the predicate `FcfFields.Fits`. Values that fit are bit vectors of the sub-fields'
widths, so a packed value is a concatenation, which decode_fcf takes apart. -/

namespace Sys2Proof.Machine

open Sys2Proof.Safety

/-! ## The sub-fields of an FCF -/

/-- Every value is within its sub-field's maximum (R170). -/
def FcfFields.Fits (f : FcfFields) : Prop :=
  f.ft ≤ 7 ∧ f.se ≤ 1 ∧ f.fp ≤ 1 ∧ f.ar ≤ 1 ∧ f.pc ≤ 1 ∧ f.dam ≤ 3 ∧ f.sam ≤ 3

/-- Values within their maxima are the values of vectors of the sub-fields' widths. -/
theorem FcfFields.Fits.exists_eq {f : FcfFields} (h : f.Fits) :
    ∃ (ft : BitVec 3) (se fp ar pc : BitVec 1) (dam sam : BitVec 2),
      f = ⟨ft.toNat, se.toNat, fp.toNat, ar.toNat, pc.toNat, dam.toNat, sam.toNat⟩ := by
  obtain ⟨ft, se, fp, ar, pc, dam, sam⟩ := f
  obtain ⟨hft, hse, hfp, har, hpc, hdam, hsam⟩ := h
  dsimp only at *
  exact ⟨.ofNatLT ft (by omega), .ofNatLT se (by omega), .ofNatLT fp (by omega),
    .ofNatLT ar (by omega), .ofNatLT pc (by omega), .ofNatLT dam (by omega),
    .ofNatLT sam (by omega), rfl⟩

/-- Decoded values are within their maxima (R176). -/
theorem decodeFcf_fits (v : BitVec 16) : (decodeFcf v).Fits := by
  refine ⟨?_, ?_, ?_, ?_, ?_, ?_, ?_⟩ <;> exact Nat.le_of_lt_succ (BitVec.isLt _)

/-- R171: the check passes exactly when every value fits. -/
theorem fcfOverflow_eq_none_iff (f : FcfFields) : fcfOverflow f = none ↔ f.Fits := by
  unfold fcfOverflow FcfFields.Fits
  split_ifs <;> simp <;> omega

theorem encodeFcf_of_fits {f : FcfFields} (h : f.Fits) : encodeFcf f = .ok (packFcf f) := by
  simp only [encodeFcf, (fcfOverflow_eq_none_iff f).2 h]

/-- R177: a value that does not fit raises. -/
theorem exists_encodeFcf_error {f : FcfFields} (h : ¬ f.Fits) :
    ∃ index, encodeFcf f = .error index := by
  cases hk : fcfOverflow f with
  | none => exact absurd ((fcfOverflow_eq_none_iff f).1 hk) h
  | some index => exact ⟨index, by simp only [encodeFcf, hk]⟩

/-! ## Packed values as concatenations -/

/-- R170: the packed FCF is its sub-fields at their positions, with 0 in the reserved bits. -/
theorem packFcf_eq_append (ft : BitVec 3) (se fp ar pc : BitVec 1) (dam sam : BitVec 2) :
    packFcf ⟨ft.toNat, se.toNat, fp.toNat, ar.toNat, pc.toNat, dam.toNat, sam.toNat⟩ =
      sam ++ 0#2 ++ dam ++ 0#3 ++ pc ++ ar ++ fp ++ se ++ ft := by
  ext i hi
  simp only [packFcf, BitVec.ofNat_toNat, ← BitVec.getLsbD_eq_getElem, BitVec.getLsbD_append]
  interval_cases i <;> simp

/-- R106: the layout of FDEC is that of the operands of format F. -/
theorem packFdec_fcfOperands (ft : BitVec 4) (se fp ar pc : BitVec 2) (dam sam : BitVec 3) :
    packFdec (fcfOperands ft se fp ar pc dam sam) = sam ++ dam ++ pc ++ ar ++ fp ++ se ++ ft := by
  ext i hi
  simp only [packFdec, fcfOperands, BitVec.ofNat_toNat, ← BitVec.getLsbD_eq_getElem,
    BitVec.getLsbD_append]
  interval_cases i <;> simp

/-- R176: the word of an FCF_ENC is 0x20000000 with its operands in the layout of FDEC. -/
theorem encode_fcfEnc (ft : BitVec 4) (se fp ar pc : BitVec 2) (dam sam : BitVec 3) :
    encode (.fcfEnc ft se fp ar pc dam sam) =
      0x20000000#32 ||| (packFdec (fcfOperands ft se fp ar pc dam sam)).setWidth 32 := by
  rw [packFdec_fcfOperands]
  ext i hi
  simp only [encode, ← BitVec.getLsbD_eq_getElem, BitVec.getLsbD_or, BitVec.getLsbD_setWidth,
    BitVec.getLsbD_append]
  interval_cases i <;> simp

/-- R177: unpacking a packed FCF gives the values back. -/
theorem decodeFcf_packFcf {f : FcfFields} (h : f.Fits) : decodeFcf (packFcf f) = f := by
  obtain ⟨ft, se, fp, ar, pc, dam, sam, rfl⟩ := h.exists_eq
  rw [packFcf_eq_append]
  simp (disch := omega) only [decodeFcf, BitVec.extractLsb'_append_eq_of_le,
    BitVec.extractLsb'_append_eq_of_add_le, Nat.reduceSub, BitVec.extractLsb'_eq_self]

/-- R177: where encode_fcf succeeds, decode_fcf inverts it. -/
theorem decodeFcf_of_encodeFcf_eq_ok {f : FcfFields} {v : BitVec 16} (h : encodeFcf f = .ok v) :
    decodeFcf v = f := by
  by_cases hf : f.Fits
  · cases (encodeFcf_of_fits hf).symm.trans h
    exact decodeFcf_packFcf hf
  · obtain ⟨index, herror⟩ := exists_encodeFcf_error hf
    cases herror.symm.trans h

/-- R177: packing the unpacked values clears the reserved bits. -/
theorem packFcf_decodeFcf (v : BitVec 16) : packFcf (decodeFcf v) = v &&& 0xCC7F#16 := by
  ext i hi
  simp only [packFcf, decodeFcf, BitVec.ofNat_toNat]
  interval_cases i <;> simp

theorem encodeFcf_decodeFcf (v : BitVec 16) :
    encodeFcf (decodeFcf v) = .ok (v &&& 0xCC7F#16) := by
  rw [encodeFcf_of_fits (decodeFcf_fits v), packFcf_decodeFcf]

/-! ## The FCF_ENC of the sub-fields of an FCF -/

/-- The FCF_ENC command whose operands are the sub-fields of an FCF. -/
def fcfEncOf (v : BitVec 16) : Instr :=
  .fcfEnc ((v.extractLsb' 0 3).setWidth 4) ((v.extractLsb' 3 1).setWidth 2)
    ((v.extractLsb' 4 1).setWidth 2) ((v.extractLsb' 5 1).setWidth 2)
    ((v.extractLsb' 6 1).setWidth 2) ((v.extractLsb' 10 2).setWidth 3)
    ((v.extractLsb' 14 2).setWidth 3)

theorem fcfOperands_subfields (v : BitVec 16) :
    fcfOperands ((v.extractLsb' 0 3).setWidth 4) ((v.extractLsb' 3 1).setWidth 2)
      ((v.extractLsb' 4 1).setWidth 2) ((v.extractLsb' 5 1).setWidth 2)
      ((v.extractLsb' 6 1).setWidth 2) ((v.extractLsb' 10 2).setWidth 3)
      ((v.extractLsb' 14 2).setWidth 3) = decodeFcf v := by
  simp (disch := omega) only [fcfOperands, decodeFcf, BitVec.toNat_setWidth_of_le]

theorem encode_fcfEncOf (v : BitVec 16) :
    encode (fcfEncOf v) = 0x20000000#32 ||| (packFdec (decodeFcf v)).setWidth 32 := by
  rw [fcfEncOf, encode_fcfEnc, fcfOperands_subfields]

/-- R176: FDEC holds each sub-field at the low end of its operand. -/
theorem packFdec_decodeFcf (f : BitVec 16) :
    packFdec (decodeFcf f) =
      0#1 ++ f.extractLsb' 14 2 ++ 0#1 ++ f.extractLsb' 10 2 ++ 0#1 ++ f.extractLsb' 6 1 ++
        0#1 ++ f.extractLsb' 5 1 ++ 0#1 ++ f.extractLsb' 4 1 ++ 0#1 ++ f.extractLsb' 3 1 ++
        0#1 ++ f.extractLsb' 0 3 := by
  ext i hi
  simp only [packFdec, decodeFcf, BitVec.ofNat_toNat, ← BitVec.getLsbD_eq_getElem,
    BitVec.getLsbD_append]
  interval_cases i <;> simp

/-! ## FCF_ENC -/

/-- A command whose effect is to raise leaves what R300 and R302 say. -/
theorem exec_of_effect_error {i : Instr} {s : State} {c : StatusCode} {f : BitVec 4} (hc : c ≠ .ok)
    (h : effect i s = .error c f) :
    exec i s = .next (afterError c.bits (if c = .errFcfOverflow then f else 0#4) s) := by
  rw [exec_eq, h, Effect.run_error, raise_eq_afterError c f s hc]

/-- R174: an FCF_ENC whose operands encode writes the encoded value. -/
theorem exec_fcfEnc_of_ok {ft : BitVec 4} {se fp ar pc : BitVec 2} {dam sam : BitVec 3}
    {v : BitVec 16} (h : encodeFcf (fcfOperands ft se fp ar pc dam sam) = .ok v) (s : State) :
    exec (.fcfEnc ft se fp ar pc dam sam) s =
      .next (afterOk (v.setWidth 32) { s with fcf := v }) :=
  exec_of_effect_ok (.fcf v) _ (by simp only [effect, h]; rfl)

/-- R174: an FCF_ENC whose check fails raises with the failing index. -/
theorem exec_fcfEnc_of_overflow {ft : BitVec 4} {se fp ar pc : BitVec 2} {dam sam : BitVec 3}
    {index : BitVec 4} (h : fcfOverflow (fcfOperands ft se fp ar pc dam sam) = some index)
    (s : State) :
    exec (.fcfEnc ft se fp ar pc dam sam) s = .next (afterError 0x13#8 index s) :=
  exec_of_effect_error (c := .errFcfOverflow) (by decide) (by simp only [effect, encodeFcf, h])

/-! ## The statements -/

/-- Settles O43: FDEC is the operand layout of the sub-fields, so the word encodes the FCF_ENC of
those sub-fields, and they encode. -/
theorem fcfDecUnpacksForReEncoding : Obligations.FcfDecUnpacksForReEncoding := by
  refine ⟨encoding_of_opcode .fcfDec, fun s => ?_⟩
  simp only [← packFdec_decodeFcf]
  refine ⟨exec_of_effect_ok (.fdec _) _ rfl, fun u => ?_⟩
  rw [← encode_fcfEncOf, execWord_of_ok _ u _ (decodeOfEncodeIsTheCommand _)]
  exact exec_fcfEnc_of_ok (by rw [fcfOperands_subfields, encodeFcf_decodeFcf]) u

/-- Settles O44: encode_fcf succeeds on values that fit and raises on all others, and decode_fcf
inverts it where it succeeds. -/
theorem fcfCodecRoundTrips : Obligations.FcfCodecRoundTrips := by
  refine ⟨fun f hft hse hfp har hpc hdam hsam => ?_, encodeFcf_decodeFcf, fun f g v hf hg => ?_,
    fun f hover => exists_encodeFcf_error ?_⟩
  · have hok := encodeFcf_of_fits (f := f) ⟨hft, hse, hfp, har, hpc, hdam, hsam⟩
    exact ⟨packFcf f, hok, decodeFcf_of_encodeFcf_eq_ok hok⟩
  · exact (decodeFcf_of_encodeFcf_eq_ok hf).symm.trans (decodeFcf_of_encodeFcf_eq_ok hg)
  · rintro ⟨hft, hse, hfp, har, hpc, hdam, hsam⟩
    omega

/-- Settles O40: operands that fit encode to the packed value. -/
theorem fcfEncPacksLegalFields : Obligations.FcfEncPacksLegalFields := by
  refine ⟨encoding_of_opcode .fcfEnc, ?_⟩
  intro ft se fp ar pc dam sam s hft hse hfp har hpc hdam hsam
  have hfits : (fcfOperands ft se fp ar pc dam sam).Fits := ⟨hft, hse, hfp, har, hpc, hdam, hsam⟩
  refine exec_fcfEnc_of_ok ((encodeFcf_of_fits hfits).trans ?_) s
  rw [← packFcf_eq_append]
  simp (disch := omega) only [fcfOperands, BitVec.toNat_setWidth, Nat.mod_eq_of_lt]

/-- Settles O41: in each clause the checks before the failing one pass. -/
theorem fcfEncNamesTheFirstOverflow : Obligations.FcfEncNamesTheFirstOverflow := by
  intro ft se fp ar pc dam sam s
  have hraise {index : BitVec 4}
      (h : fcfOverflow (fcfOperands ft se fp ar pc dam sam) = some index) :=
    exec_fcfEnc_of_overflow h s
  refine ⟨fun hft => hraise ?_, fun hft hse => hraise ?_, fun hft hse hfp => hraise ?_,
    fun hft hse hfp har => hraise ?_, fun hft hse hfp har hpc => hraise ?_,
    fun hft hse hfp har hpc hdam => hraise ?_, fun hft hse hfp har hpc hdam hsam => hraise ?_⟩
  all_goals simp [fcfOverflow, fcfOperands, not_lt_of_ge, *]

/-- Settles O42: FCF_LOAD writes its operand to FCF and completes with it. -/
theorem fcfLoadLoadsTheRawFcf : Obligations.FcfLoadLoadsTheRawFcf :=
  ⟨encoding_of_opcode .fcfLoad, fun _ _ => exec_of_effect_ok (.fcf _) _ rfl⟩

end Sys2Proof.Machine

/-! SUPPORT. Proofs for the statements about the frame assembler (spec/42_frame.md). The bytes that
an accepted BUILD reads from DIN are one run of V + W bytes, so its frame is four segments that V
enters only through V + W (`builtFrame_eq`). `readBytes_fout_segments` reads the segments back from
FOUT, and the layout, the lengths and the parse follow from it. -/

namespace Sys2Proof.Machine

open Sys2Proof.Safety

/-! ## Consecutive reads -/

/-- A read of `m + n` bytes is a read of `m` bytes and then one of `n`. -/
theorem readBytes_add (sp : Space) (s : State) (a m n : Nat) :
    s.readBytes sp a (m + n) = s.readBytes sp a m ++ s.readBytes sp (a + m) n := by
  refine List.ext_getElem? fun i => ?_
  simp only [List.getElem?_append, readBytes_getElem?, readBytes_length]
  by_cases hi : i < m
  · rw [if_pos hi, if_pos (by omega), if_pos hi]
  · rw [if_neg hi, show a + m + (i - m) = a + i by omega]
    exact if_congr (by omega) rfl rfl

/-- A concatenation is read exactly when its parts are read one after the other. -/
theorem readBytes_eq_append_iff (sp : Space) (s : State) (a m n : Nat) {xs ys : List Byte}
    (hm : xs.length = m) :
    s.readBytes sp a (m + n) = xs ++ ys ↔
      s.readBytes sp a m = xs ∧ s.readBytes sp (a + m) n = ys := by
  rw [readBytes_add]
  exact List.append_eq_append_iff_of_size_eq_left (by rw [readBytes_length, hm])

/-- Two reads are equal exactly when they are equal byte by byte. -/
theorem readBytes_eq_iff (sp sp' : Space) (s t : State) (a b n : Nat) :
    s.readBytes sp a n = t.readBytes sp' b n ↔
      ∀ i, i < n → s.readByte sp (a + i) = t.readByte sp' (b + i) := by
  constructor
  · intro h i hi
    have hget := congrArg (·[i]?) h
    simpa only [readBytes_getElem?, if_pos hi, Option.some.injEq] using hget
  · intro h
    refine List.ext_getElem? fun i => ?_
    rw [readBytes_getElem?, readBytes_getElem?]
    split
    next hi => rw [h i hi]
    next => rfl

/-- A read that gives copies of one byte has that byte at each of its addresses. -/
theorem readByte_of_readBytes_eq_replicate {sp : Space} {s : State} {a n : Nat} {x : Byte}
    (h : s.readBytes sp a n = List.replicate n x) (i : Nat) (hi : i < n) :
    s.readByte sp (a + i) = x := by
  have hget := congrArg (·[i]?) h
  simpa only [readBytes_getElem?, List.getElem?_replicate, if_pos hi, Option.some.injEq] using hget

/-! ## The padding -/

theorem byteModulus_pos (spb : Nat) (h : 0 < spb) : 0 < byteModulus spb :=
  Nat.pos_of_dvd_of_pos (byteModulus_dvd_sixteen spb h) (by decide)

/-- R231: the padded length is a multiple of the byte modulus. -/
theorem add_paddingBytes_mod (len spb : Nat) (h : 0 < spb) :
    (len + paddingBytes len spb) % byteModulus spb = 0 := by
  have hpos := byteModulus_pos spb h
  unfold paddingBytes
  split
  next hmul => exact hmul
  next =>
    have hlt := Nat.mod_lt len hpos
    have hsum : len + (byteModulus spb - len % byteModulus spb) =
        byteModulus spb * (len / byteModulus spb + 1) := by
      rw [Nat.mul_succ]
      have hdiv := Nat.div_add_mod len (byteModulus spb)
      omega
    rw [hsum, Nat.mul_mod_right]

/-- R210: the padding is less than the byte modulus. -/
theorem paddingBytes_lt_byteModulus (len spb : Nat) (h : 0 < spb) :
    paddingBytes len spb < byteModulus spb := by
  have hpos := byteModulus_pos spb h
  unfold paddingBytes
  split <;> omega

/-! ## The segments of BUILD's frame -/

/-- SHR and PHR of a frame with `n` bytes of address info and payload (R201, R202). -/
def builtHeader (n : Nat) (s : State) : List Byte :=
  [0x00#8, 0x00#8, 0x00#8, 0x00#8, s.sfd, BitVec.ofNat 8 (5 + n)]

/-- The MPDU of a frame with `n` bytes of address info and payload (R203). -/
def builtMpdu (n : Nat) (seq : BitVec 9) (s : State) : List Byte :=
  [s.fcf.extractLsb' 0 8, s.fcf.extractLsb' 8 8, seq.setWidth 8] ++ s.readBytes .din 0 n

/-- How many zero bytes follow the FCS: padding and tail (R205). -/
def trailerLength (pad : BitVec 1) (n spb : Nat) : Nat :=
  if pad = 1#1 then paddingBytes (11 + n) spb + 5 else 0

@[simp] theorem builtHeader_length (n : Nat) (s : State) : (builtHeader n s).length = 6 := rfl

@[simp] theorem builtMpdu_length (n : Nat) (seq : BitVec 9) (s : State) :
    (builtMpdu n seq s).length = 3 + n := by
  simp only [builtMpdu, List.length_append, List.length_cons, List.length_nil, readBytes_length]

/-- The frame function with its optional part as a number of zero bytes (R200, R205). -/
theorem frame_eq_append_replicate (fcf : BitVec 16) (seq : Byte) (addr payload : List Byte)
    (pad : BitVec 1) (spb : Nat) (sfd : Byte) :
    frame fcf seq addr payload pad spb sfd =
      bareFrame fcf seq addr payload sfd ++
        List.replicate (trailerLength pad (addr.length + payload.length) spb) 0x00#8 := by
  unfold frame trailerLength
  split
  next => rw [padFrame_eq, bareFrame_length, Nat.add_assoc 11]
  next => rw [List.replicate_zero, List.append_nil]

/-- BUILD's frame is SHR and PHR, MPDU, FCS and zero bytes; V and W enter through their sum only. -/
theorem builtFrame_eq (w : BitVec 8) (v : BitVec 5) (pad : BitVec 1) (seq : BitVec 9) (s : State) :
    builtFrame w v pad seq s =
      builtHeader (v.toNat + w.toNat) s ++ (builtMpdu (v.toNat + w.toNat) seq s ++
        (fcsBytes (builtMpdu (v.toNat + w.toNat) seq s) ++
          List.replicate (trailerLength pad (v.toNat + w.toNat) s.spb.toNat) 0x00#8)) := by
  have hdin : s.readBytes .din 0 (v.toNat + w.toNat) =
      s.readBytes .din 0 v.toNat ++ s.readBytes .din v.toNat w.toNat := by
    rw [readBytes_add, Nat.zero_add]
  have hmpdu : builtMpdu (v.toNat + w.toNat) seq s =
      mpduBytes s.fcf (seq.setWidth 8) (s.readBytes .din 0 v.toNat)
        (s.readBytes .din v.toNat w.toNat) := by
    simp only [builtMpdu, mpduBytes, fcfBytes, hdin, List.cons_append, List.nil_append]
  rw [builtFrame, frame_eq_append_replicate, bareFrame_eq, ← hmpdu]
  simp only [builtHeader, builtMpdu, hdin, readBytes_length, List.append_assoc, List.cons_append,
    List.nil_append, Nat.add_assoc]

theorem builtFrame_length (w : BitVec 8) (v : BitVec 5) (pad : BitVec 1) (seq : BitVec 9)
    (s : State) :
    (builtFrame w v pad seq s).length =
      6 + ((3 + (v.toNat + w.toNat)) +
        (2 + trailerLength pad (v.toNat + w.toNat) s.spb.toNat)) := by
  simp only [builtFrame_eq, List.length_append, builtHeader_length, builtMpdu_length,
    fcsBytes_length, List.length_replicate]

/-! ## The state after an accepted BUILD -/

/-- The state that an accepted BUILD leaves (R206). -/
def builtState (w : BitVec 8) (v : BitVec 5) (pad : BitVec 1) (seq : BitVec 9) (s : State) :
    State :=
  afterOk (wordOfNat (builtFrame w v pad seq s).length)
    ((Update.frame (builtFrame w v pad seq s)).apply s)

section

variable (w : BitVec 8) (v : BitVec 5) (pad : BitVec 1) (seq : BitVec 9) (s : State)

/-- The end of BUILD leaves the bytes as its write left them. -/
theorem readByte_builtState (sp : Space) (a : Nat) :
    (builtState w v pad seq s).readByte sp a =
      ((Update.frame (builtFrame w v pad seq s)).apply s).readByte sp a := by
  cases sp <;> rfl

/-- FOUT holds BUILD's frame from its first byte on. -/
theorem readBytes_builtState :
    (builtState w v pad seq s).readBytes .fout 0 (builtFrame w v pad seq s).length =
      builtFrame w v pad seq s :=
  (readBytes_congr .fout _ _ 0 _ fun _ _ _ => readByte_builtState ..).trans
    (Update.readBytes_apply_frame _ s)

/-- A byte of FOUT at an address inside the frame is the frame's byte there. -/
theorem getElem?_builtFrame (a : Nat) (ha : a < (builtFrame w v pad seq s).length) :
    (builtFrame w v pad seq s)[a]? = some ((builtState w v pad seq s).readByte .fout a) := by
  rw [readByte_builtState, Update.readByte_apply_frame _ _ _ ha, List.getD_eq_getElem _ _ ha,
    List.getElem?_eq_getElem ha]

/-- R208: FOUT beyond the frame stays. -/
theorem readByte_fout_of_length_le (a : Nat) (ha : (builtFrame w v pad seq s).length ≤ a) :
    (builtState w v pad seq s).readByte .fout a = s.readByte .fout a := by
  rw [readByte_builtState, Update.readByte_apply]
  exact if_neg (by simpa only [Update.addr, Update.bytes, Nat.zero_le, Nat.zero_add, true_and,
    not_lt])

/-- R208: DIN stays. -/
theorem readByte_din_builtState (a : Nat) :
    (builtState w v pad seq s).readByte .din a = s.readByte .din a := by
  rw [readByte_builtState, Update.readByte_apply_of_bytes_eq_nil _ _ _ rfl]

/-- R212: the frame does not record where the address info ends. -/
theorem builtState_congr_add {w' : BitVec 8} {v' : BitVec 5}
    (h : v'.toNat + w'.toNat = v.toNat + w.toNat) :
    builtState w' v' pad seq s = builtState w v pad seq s := by
  simp only [builtState, builtFrame_eq, h]

/-- R209: the four segments of the frame at their offsets in FOUT. -/
theorem readBytes_fout_segments :
    let t := builtState w v pad seq s
    let n := v.toNat + w.toNat
    t.readBytes .fout 0 6 = builtHeader n s ∧
    t.readBytes .fout 6 (3 + n) = builtMpdu n seq s ∧
    t.readBytes .fout (9 + n) 2 = fcsBytes (builtMpdu n seq s) ∧
    t.readBytes .fout (11 + n) (trailerLength pad n s.spb.toNat) =
      List.replicate (trailerLength pad n s.spb.toNat) 0x00#8 := by
  intro t n
  have hall : t.readBytes .fout 0 (6 + (3 + n + (2 + trailerLength pad n s.spb.toNat))) =
      builtHeader n s ++ (builtMpdu n seq s ++ (fcsBytes (builtMpdu n seq s) ++
        List.replicate (trailerLength pad n s.spb.toNat) 0x00#8)) := by
    rw [← builtFrame_length, ← builtFrame_eq]
    exact readBytes_builtState ..
  have hfcs : 0 + 6 + (3 + n) = 9 + n := by omega
  have hzeros : 9 + n + 2 = 11 + n := by omega
  rwa [readBytes_eq_append_iff _ _ _ _ _ (builtHeader_length ..),
    readBytes_eq_append_iff _ _ _ _ _ (builtMpdu_length ..), hfcs,
    readBytes_eq_append_iff _ _ _ _ _ (fcsBytes_length _), hzeros] at hall

/-- R201, R202: the bytes of SHR and PHR. -/
theorem readByte_fout_header :
    let t := builtState w v pad seq s
    (∀ a, a < 4 → t.readByte .fout a = 0x00#8) ∧ t.readByte .fout 4 = s.sfd ∧
      t.readByte .fout 5 = BitVec.ofNat 8 (5 + (v.toNat + w.toNat)) := by
  obtain ⟨hheader, -, -, -⟩ := readBytes_fout_segments w v pad seq s
  simp only [State.readBytes, builtHeader, List.cons.injEq] at hheader
  obtain ⟨h0, h1, h2, h3, hsfd, hphr, -⟩ := hheader
  refine ⟨fun a ha => ?_, hsfd, hphr⟩
  interval_cases a <;> assumption

/-- R203: the bytes of the MPDU; those after the sequence number are copied from DIN. -/
theorem readByte_fout_mpdu :
    let t := builtState w v pad seq s
    t.readByte .fout 6 = s.fcf.extractLsb' 0 8 ∧ t.readByte .fout 7 = s.fcf.extractLsb' 8 8 ∧
      t.readByte .fout 8 = seq.setWidth 8 ∧
      ∀ i, i < v.toNat + w.toNat → t.readByte .fout (9 + i) = s.readByte .din i := by
  obtain ⟨-, hmpdu, -, -⟩ := readBytes_fout_segments w v pad seq s
  obtain ⟨hhead, hdin⟩ := (readBytes_eq_append_iff _ _ _ 3 _ (by rfl)).1 hmpdu
  simp only [State.readBytes, List.cons.injEq] at hhead
  obtain ⟨hlo, hhi, hseq, -⟩ := hhead
  refine ⟨hlo, hhi, hseq, fun i hi => ?_⟩
  rw [(readBytes_eq_iff ..).1 hdin i hi, Nat.zero_add]

/-- R203: a run of address info and payload bytes is copied to FOUT as it stands in DIN. -/
theorem readBytes_fout_copied (a n : Nat) (h : a + n ≤ v.toNat + w.toNat) :
    (builtState w v pad seq s).readBytes .fout (9 + a) n = s.readBytes .din a n := by
  obtain ⟨-, -, -, hdin⟩ := readByte_fout_mpdu w v pad seq s
  refine (readBytes_eq_iff ..).2 fun i hi => ?_
  rw [Nat.add_assoc, hdin (a + i) (by omega)]

/-- R204: the FCS is the CRC of the MPDU as FOUT holds it, most significant byte first. -/
theorem readByte_fout_fcs :
    let t := builtState w v pad seq s
    let n := v.toNat + w.toNat
    let c := crc16 (t.readBytes .fout 6 (3 + n)) 0#16
    t.readByte .fout (9 + n) = c.extractLsb' 8 8 ∧
      t.readByte .fout (10 + n) = c.extractLsb' 0 8 := by
  obtain ⟨-, hmpdu, hfcs, -⟩ := readBytes_fout_segments w v pad seq s
  rw [← hmpdu] at hfcs
  simp only [State.readBytes, fcsBytes, checksumBytes, List.cons.injEq] at hfcs
  obtain ⟨hhi, hlo, -⟩ := hfcs
  rw [Nat.add_right_comm] at hlo
  exact ⟨hhi, hlo⟩

/-- R205: every byte of FOUT after the FCS, up to the end of the frame, is zero. -/
theorem readByte_fout_trailer (a : Nat) (ha : 11 + (v.toNat + w.toNat) ≤ a)
    (hlt : a < (builtFrame w v pad seq s).length) :
    (builtState w v pad seq s).readByte .fout a = 0x00#8 := by
  obtain ⟨-, -, -, hzeros⟩ := readBytes_fout_segments w v pad seq s
  rw [builtFrame_length] at hlt
  obtain ⟨i, rfl⟩ := Nat.exists_eq_add_of_le ha
  exact readByte_of_readBytes_eq_replicate hzeros i (by omega)

variable {w v pad seq s}

theorem exec_build_of_legal (h : LegalBuild w v pad seq s.spb) :
    exec (.build w v pad seq) s = .next (builtState w v pad seq s) :=
  exec_of_effect_ok _ _ (effect_build_of_legal w v pad seq s h)

/-- FLEN is the number of the frame's bytes. -/
theorem flen_builtState (h : LegalBuild w v pad seq s.spb) :
    (builtState w v pad seq s).flen.toNat = (builtFrame w v pad seq s).length := by
  have hlen := (legalFrame_builtFrame w v pad seq s h).length_bounds
  change (BitVec.ofNat 8 (builtFrame w v pad seq s).length).toNat = _
  rw [BitVec.toNat_ofNat]
  omega

/-- R202: the PHR of an accepted BUILD counts the bytes of MPDU and FCS without truncation. -/
theorem readByte_fout_phr_toNat (h : LegalBuild w v pad seq s.spb) :
    ((builtState w v pad seq s).readByte .fout 5).toNat = 5 + v.toNat + w.toNat := by
  obtain ⟨-, -, hvw, -⟩ := h
  obtain ⟨-, -, hphr⟩ := readByte_fout_header w v pad seq s
  rw [hphr, BitVec.toNat_ofNat]
  omega

/-- R210: FLEN without and with the padding and the tail. -/
theorem flen_builtState_of_pad (h : LegalBuild w v pad seq s.spb) :
    let L := 11 + v.toNat + w.toNat
    (pad = 0#1 → (builtState w v pad seq s).flen.toNat = L) ∧
      (pad = 1#1 →
        (builtState w v pad seq s).flen.toNat = L + paddingBytes L s.spb.toNat + 5) := by
  rw [flen_builtState h, builtFrame_length, trailerLength, ← Nat.add_assoc 11]
  constructor
  · rintro rfl
    rw [if_neg (by decide)]
    omega
  · rintro rfl
    rw [if_pos rfl]
    omega

end

/-! ## The checks, and the register CRC -/

/-- R304: a BUILD with a failing check raises that check's code. -/
theorem exec_build_of_error {w : BitVec 8} {v : BitVec 5} {pad : BitVec 1} {seq : BitVec 9}
    {s : State} {e : StatusCode} (he : e ≠ .ok) (h : buildError w v pad seq s.spb = some e) :
    exec (.build w v pad seq) s = .next (afterError e.bits 0#4 s) := by
  have hexec := exec_of_effect_error (i := .build w v pad seq) (s := s) (f := 0#4) he
    (by simp only [effect, h])
  rwa [ite_self] at hexec

/-- R33: an update that no CRC command makes neither reads nor writes CRC. -/
theorem Update.apply_setCrc (u : Update) (op : Opcode) (h : op ∈ u.writers)
    (hop : op ∉ [.crcInit, .crcByte, .crcByteS]) (s : State) (c : BitVec 16) :
    u.apply { s with crc := c } = { u.apply s with crc := c } := by
  cases u with
  | crc v => exact absurd h hop
  | _ => rfl

/-- A 16-bit value is put together from its two bytes (R173, R204). -/
theorem lowByte_or_highByte (v : BitVec 16) :
    (v.extractLsb' 0 8).setWidth 16 ||| (v.extractLsb' 8 8).setWidth 16 <<< 8 = v := by
  ext i hi
  interval_cases i <;> simp

/-! ## The statements -/

/-- Settles O48: in each clause the checks before the failing one pass. -/
theorem buildReportsTheFirstFailingCheck : Obligations.BuildReportsTheFirstFailingCheck := by
  intro w v pad seq s
  refine ⟨fun hseq => exec_build_of_error (e := .errSeq) (by decide) ?_,
    fun hseq hv => exec_build_of_error (e := .errAddrLen) (by decide) ?_,
    fun hseq hv hw => exec_build_of_error (e := .errPayloadLen) (by decide) ?_,
    fun hseq hv hw hpad hspb => exec_build_of_error (e := .errConfig) (by decide) ?_⟩
  all_goals simp [buildError_eq, not_lt_of_ge, *]

/-- Settles O53: BUILD's inputs do not include CRC, and its one write leaves it. -/
theorem buildNeitherReadsNorWritesCrc : Obligations.BuildNeitherReadsNorWritesCrc := by
  intro w v pad seq s c
  have hexec := exec_eq (.build w v pad seq) s
  have hwriters := opcode_mem_writers (.build w v pad seq) s
  have hinputs : SameBuildInputs v.toNat w.toNat { s with crc := c } s :=
    ⟨rfl, rfl, rfl, fun _ _ => rfl⟩
  obtain ⟨hcrc, -⟩ := registersChangeOnlyByTheirCommands (.build w v pad seq) s _ hexec
  refine ⟨_, hexec, hcrc (by simp [Instr.opcode]), ?_⟩
  rw [exec_eq, effect_build_congr w v pad seq hinputs, Effect.run,
    Update.apply_setCrc _ _ hwriters (by simp [Instr.opcode])]
  rfl

/-- Settles O49: BUILD's one write is its frame in FOUT and the frame's length in FLEN. -/
theorem buildStoresTheFrame : Obligations.BuildStoresTheFrame :=
  ⟨encoding_of_opcode .build, fun w v pad seq s h =>
    ⟨builtState w v pad seq s, exec_build_of_legal h, flen_builtState h,
      getElem?_builtFrame w v pad seq s, readByte_fout_of_length_le w v pad seq s,
      readByte_din_builtState w v pad seq s, rfl⟩⟩

/-- Settles O50, segment by segment. -/
theorem frameLayoutInFout : Obligations.FrameLayoutInFout := by
  intro w v pad seq s h L n
  obtain ⟨hpre, hsfd, -⟩ := readByte_fout_header w v pad seq s
  obtain ⟨hlo, hhi, hseq, hdin⟩ := readByte_fout_mpdu w v pad seq s
  have hfcs := readByte_fout_fcs w v pad seq s
  have hflen := flen_builtState_of_pad h
  have hphr := readByte_fout_phr_toNat h
  have hframe := flen_builtState h
  have hexec := exec_build_of_legal h
  obtain ⟨hseq255, -⟩ := h
  simp only [← Nat.add_assoc] at hfcs
  refine ⟨builtState w v pad seq s, hexec, hpre, hsfd, hphr, hlo, hhi, ?_,
    fun i hi => hdin i (by omega), ?_, hfcs, hflen.1, fun hp => ⟨hflen.2 hp, fun a ha hlt => ?_⟩⟩
  · rw [hseq, BitVec.toNat_setWidth]
    omega
  · intro i hi
    rw [Nat.add_assoc, hdin (v.toNat + i) (by omega)]
  · refine readByte_fout_trailer w v pad seq s a (by omega) ?_
    rw [← hframe, hflen.2 hp]
    exact hlt

/-- Settles O51, from the length of the frame and the law of the padding. -/
theorem frameLengthsAndBounds : Obligations.FrameLengthsAndBounds := by
  intro w v pad seq s h L m
  have hflen := flen_builtState_of_pad h
  have hphr := readByte_fout_phr_toNat h
  have hbound := (legalFrame_builtFrame w v pad seq s h).length_bounds
  have hframe := flen_builtState h
  have hexec := exec_build_of_legal h
  obtain ⟨-, -, hvw, hspb⟩ := h
  refine ⟨builtState w v pad seq s, hexec, fun hp => ?_, fun hp => ?_, hvw, by omega, by omega⟩
  · have hlen := hflen.1 hp
    omega
  · have hpos := toNat_pos_of_ne_zero (hspb hp)
    have hmod : (L + paddingBytes L s.spb.toNat) % m = 0 := add_paddingBytes_mod L _ hpos
    refine ⟨_, rfl, paddingBytes_lt_byteModulus L _ hpos, hflen.2 hp, hmod, ?_⟩
    rw [hflen.2 hp, Nat.add_mod, hmod, Nat.zero_add, Nat.mod_mod]

/-- Settles O52: the segments give the inputs back, and the frame depends on V and W through their
sum. -/
theorem unpaddedFrameParsesBack : Obligations.UnpaddedFrameParsesBack := by
  intro w v seq s h
  obtain ⟨hlo, hhi, hseq, -⟩ := readByte_fout_mpdu w v 0#1 seq s
  have hcopied := readBytes_fout_copied w v 0#1 seq s
  obtain ⟨hfcshi, hfcslo⟩ := readByte_fout_fcs w v 0#1 seq s
  have hphr := readByte_fout_phr_toNat h
  have hexec := exec_build_of_legal h
  obtain ⟨hseq255, -, hvw, hpad⟩ := h
  refine ⟨builtState w v 0#1 seq s, hexec, ?_⟩
  intro F V W
  have hW : W = w.toNat := by
    simp only [W, F, V]
    omega
  have hcount : (F 5).toNat + 3 + 1 - (9 + V) = w.toNat := by
    simp only [F, V]
    omega
  have hcrcCount : 8 + V + w.toNat + 1 - 6 = 3 + (V + w.toNat) := by omega
  refine ⟨?_, ?_, hW, (hcopied 0 V (by omega)).symm, ?_, ?_, ?_⟩
  · simp only [F, hlo, hhi, lowByte_or_highByte]
  · simp only [F, hseq]
    bv_omega
  · rw [hW, hcount, hcopied V w.toNat (Nat.le_refl _)]
  · rw [hW, hcrcCount, Nat.add_assoc 9, Nat.add_assoc 10]
    simp only [F, V, hfcshi, hfcslo]
    rw [BitVec.or_comm, lowByte_or_highByte]
  · intro w' v' hv' hsum
    rw [← builtState_congr_add w v 0#1 seq s hsum]
    exact exec_build_of_legal ⟨hseq255, hv', by omega, hpad⟩

end Sys2Proof.Machine

/-! SUPPORT. Proofs for the statements about the padding calculator (spec/43_padding.md). The byte
modulus `m` of `spb` satisfies `m * spb = lcm 16 spb`, and so `gcd 16 spb * m = 16`. The padding is
the representative below `m` of its residue class, and so the least number in it. -/

namespace Sys2Proof.Machine

open Sys2Proof.Safety

/-! ## The byte modulus and the least padding -/

/-- R230: the division in the byte modulus is exact. -/
theorem byteModulus_mul (spb : Nat) : byteModulus spb * spb = Nat.lcm 16 spb :=
  Nat.div_mul_cancel (Nat.dvd_lcm_right 16 spb)

/-- R230: the byte modulus is 16 div gcd(16, spb). -/
theorem gcd_mul_byteModulus (spb : Nat) (h : 0 < spb) : Nat.gcd 16 spb * byteModulus spb = 16 := by
  refine Nat.eq_of_mul_eq_mul_right h ?_
  rw [Nat.mul_assoc, byteModulus_mul, Nat.gcd_mul_lcm]

/-- R232: every padding that aligns is in the residue class of `paddingBytes`, which is below the
modulus. -/
theorem paddingBytes_le_of_add_mod (len spb n : Nat) (h : 0 < spb)
    (hn : (len + n) % byteModulus spb = 0) : paddingBytes len spb ≤ n := by
  have hclass : paddingBytes len spb ≡ n [MOD byteModulus spb] :=
    Nat.ModEq.add_left_cancel' len ((add_paddingBytes_mod len spb h).trans hn.symm)
  calc paddingBytes len spb
      = paddingBytes len spb % byteModulus spb :=
        (Nat.mod_eq_of_lt (paddingBytes_lt_byteModulus len spb h)).symm
    _ = n % byteModulus spb := hclass
    _ ≤ n := Nat.mod_le n _

/-- R232: a multiple of the byte modulus fills whole transport blocks of 128 samples. -/
theorem samples_mod_of_byteModulus_dvd (len spb : Nat) (h : byteModulus spb ∣ len) :
    8 * len * spb % 128 = 0 := by
  have hsamples : 16 ∣ len * spb :=
    calc 16 ∣ Nat.lcm 16 spb := Nat.dvd_lcm_left 16 spb
      _ = byteModulus spb * spb := (byteModulus_mul spb).symm
      _ ∣ len * spb := Nat.mul_dvd_mul_right h spb
  rw [Nat.mul_assoc]
  exact Nat.mod_eq_zero_of_dvd (Nat.mul_dvd_mul_left 8 hsamples)

/-! ## The statements -/

/-- Settles O46: the byte modulus is one of five numbers, and each fixes the gcd, since their product
is 16. -/
theorem byteModulusDependsOnlyOnTheGcd : Obligations.ByteModulusDependsOnlyOnTheGcd := by
  intro spb h
  have hprod := gcd_mul_byteModulus spb h
  have hmem := byteModulus_mem spb h
  simp only [List.mem_cons, List.not_mem_nil, or_false] at hmem
  rcases hmem with hm | hm | hm | hm | hm <;> rw [hm] at hprod ⊢ <;> omega

/-- Settles O47, from the law of the padding, its minimality and the samples of an aligned length. -/
theorem paddingAlignsToTransportBlocks : Obligations.PaddingAlignsToTransportBlocks := by
  intro len spb h
  have hmod := add_paddingBytes_mod len spb h
  exact ⟨hmod, fun n => paddingBytes_le_of_add_mod len spb n h,
    samples_mod_of_byteModulus_dvd _ spb (Nat.dvd_of_mod_eq_zero hmod)⟩

/-- Settles O45: PAD_CALC raises while SPB is 0, and otherwise writes the padding to PADN and
completes with it. -/
theorem padCalcComputesThePadding : Obligations.PadCalcComputesThePadding := by
  refine ⟨encoding_of_opcode .padCalc, fun imm16 s => ⟨fun hspb => ?_, fun hspb => ⟨?_, ?_⟩⟩⟩
  · exact exec_of_effect_error (c := .errConfig) (f := 0#4) (by decide)
      (by simp only [effect, if_pos hspb])
  · exact paddingBytes_lt_sixteen imm16.toNat s.spb.toNat (toNat_pos_of_ne_zero hspb)
  · exact exec_of_effect_ok (.padn _) _ (by simp only [effect, if_neg hspb]; rfl)

end Sys2Proof.Machine

/-! SUPPORT. Proofs for the statements about control, data movement and register access
(spec/44_control.md). A command's effect (`exec_eq`) says what it writes and how it ends; what is
left to show is how STATUS reads with its reserved bits masked, which register a regno names, and
where DIN_WR's byte goes. -/

namespace Sys2Proof.Machine

open Sys2Proof.Safety

/-! ## STATUS -/

/-- R34: the fields of STATUS put back together are STATUS with its reserved bits 0. -/
theorem packStatus_fields (st : BitVec 17) :
    packStatus (statusSticky st) (statusField st) (statusCode st) = st &&& 0x10FFF#17 := by
  ext i hi
  simp only [packStatus, statusSticky, statusField, statusCode, ← BitVec.getLsbD_eq_getElem,
    BitVec.getLsbD_append]
  interval_cases i <;> simp

/-- R253: with STICKY cleared first, the status update of a command that completes leaves 0. -/
theorem clearSticky_and_sticky (st : BitVec 17) : clearSticky st &&& 0x10000#17 = 0#17 := by
  calc clearSticky st &&& 0x10000#17
      = statusAfter (clearSticky st) .ok 0#4 := (statusAfter_ok _ 0#4).symm
    _ = packStatus false 0#4 0x00#8 := by simp [statusAfter, clearSticky, StatusCode.bits]
    _ = 0#17 := by decide

/-! ## The registers -/

/-- R33: the assigned regnos are 0x00 to 0x09. -/
theorem regno_lt (r : RegName) : (RegName.regno r).toNat < 0x0A := by cases r <;> decide

/-- R33: a regno names its register. -/
@[simp] theorem regOf_regno (r : RegName) : regOf (RegName.regno r) = some r := by cases r <;> rfl

/-- R33: a regno from 0x0A on names no register. -/
theorem regOf_eq_none (n : BitVec 8) (h : 0x0A ≤ n.toNat) : regOf n = none := by
  refine List.find?_eq_none.2 fun r _ hr => ?_
  obtain rfl : RegName.regno r = n := eq_of_beq hr
  exact absurd (regno_lt r) (not_lt.2 h)

/-- R39: BMOD reads 0 while SPB is not configured. -/
theorem bmod_of_spb_eq_zero {s : State} (h : s.spb = 0#8) : s.bmod = 0#8 := if_pos h

/-- R39: BMOD reads the byte modulus of SPB, which its 8 bits hold. -/
theorem zext32_bmod_of_spb_ne_zero {s : State} (h : s.spb ≠ 0#8) :
    zext32 s.bmod = wordOfNat (byteModulus s.spb.toNat) := by
  have hle : byteModulus s.spb.toNat ≤ 16 :=
    Nat.le_of_dvd (by decide) (byteModulus_dvd_sixteen _ (toNat_pos_of_ne_zero h))
  have hlt : byteModulus s.spb.toNat < 2 ^ 8 := by omega
  rw [State.bmod, if_neg h]
  exact BitVec.setWidth_ofNat_of_le_of_lt (by decide) hlt

/-- R257: REG_RD of an assigned regno answers its register. -/
theorem exec_regRd_regno (r : RegName) (s : State) :
    exec (.regRd (RegName.regno r)) s = .next (afterOk (s.readReg r) s) :=
  exec_of_effect_ok .keep _ (by simp only [effect, regOf_regno])

/-! ## DIN after DIN_WR -/

/-- R254: a byte of DIN read after one byte is written there. -/
theorem Update.readByte_apply_dinByte (addr8 data8 : BitVec 8) (s : State) (a : Nat) :
    ((Update.dinByte addr8 data8).apply s).readByte .din a =
      if a = addr8.toNat then data8 else s.readByte .din a := by
  rw [readByte_apply]
  simp only [addr, bytes, List.length_singleton, Nat.lt_add_one_iff, ← le_antisymm_iff,
    eq_comm (a := addr8.toNat)]
  split
  next ha => simp [ha]
  next => rfl

/-! ## The statements -/

/-- Settles O22: NOP writes nothing and completes. -/
theorem nopOnlyUpdatesStatus : Obligations.NopOnlyUpdatesStatus :=
  ⟨encoding_of_opcode .nop, fun _ => exec_of_effect_ok .keep _ rfl⟩

/-- Settles O23: CFG_SPB raises on operand 0, and otherwise writes SPB and completes with the byte
modulus of the operand. -/
theorem cfgSpbConfiguresSamplesPerBit : Obligations.CfgSpbConfiguresSamplesPerBit := by
  refine ⟨encoding_of_opcode .cfgSpb, fun s => ?_, fun imm8 s himm => ?_⟩
  · exact exec_of_effect_error (c := .errConfig) (f := 0#4) (by decide) rfl
  · exact exec_of_effect_ok (.spb imm8) _ (by simp only [effect, if_neg himm]; rfl)

/-- Settles O24: CFG_SFD writes its operand to SFD and completes with it. -/
theorem cfgSfdSetsTheDelimiter : Obligations.CfgSfdSetsTheDelimiter :=
  ⟨encoding_of_opcode .cfgSfd, fun _ _ => exec_of_effect_ok (.sfd _) _ rfl⟩

/-- Settles O25: STICKY, the one bit that the status update keeps, is cleared before it. -/
theorem clrErrClearsSticky : Obligations.ClrErrClearsSticky := by
  refine ⟨encoding_of_opcode .clrErr, fun s => ?_⟩
  rw [exec_of_effect_ok .clearSticky 0#32 rfl, afterOk, Update.apply, clearSticky_and_sticky]

/-- Settles O26: DIN_WR writes one byte of DIN, and its end changes STATUS and the responses. -/
theorem dinWrWritesOneByte : Obligations.DinWrWritesOneByte := by
  refine ⟨encoding_of_opcode .dinWr, fun addr8 data8 s => ?_⟩
  have hdin (a : Nat) : ((effect (.dinWr addr8 data8) s).run s).readByte .din a =
      if a = addr8.toNat then data8 else s.readByte .din a :=
    (Effect.readByte_run ..).trans (Update.readByte_apply_dinByte addr8 data8 s a)
  refine ⟨_, exec_eq _ s, (hdin _).trans (if_pos rfl), fun a ha => (hdin a).trans (if_neg ha),
    fun a => ?_, ?_⟩
  · exact (Effect.readByte_run ..).trans
      (Update.readByte_apply_of_bytes_eq_nil (.dinByte addr8 data8) s .fout rfl a)
  · rw [effect, Effect.run_ok, complete_eq_afterOk]
    rfl

/-- Settles O27: DIN_RD completes with the byte and writes nothing. -/
theorem dinRdReadsOneByte : Obligations.DinRdReadsOneByte :=
  ⟨encoding_of_opcode .dinRd, fun _ _ => exec_of_effect_ok .keep _ rfl⟩

/-- Settles O28: FOUT_RD completes with the byte, for every address, and writes nothing. -/
theorem foutRdReadsOneByte : Obligations.FoutRdReadsOneByte :=
  ⟨encoding_of_opcode .foutRd, fun _ _ => exec_of_effect_ok .keep _ rfl⟩

/-- Settles O29: REG_RD answers the register that the regno names, and raises if it names none. -/
theorem regRdReadsEveryRegister : Obligations.RegRdReadsEveryRegister := by
  refine ⟨encoding_of_opcode .regRd, fun s => ⟨?status, exec_regRd_regno .crc s,
    exec_regRd_regno .fcf s, exec_regRd_regno .fdec s, exec_regRd_regno .spb s,
    exec_regRd_regno .sfd s, exec_regRd_regno .flen s, exec_regRd_regno .padn s,
    fun hspb => ?unconfigured, fun hspb => ?configured, exec_regRd_regno .caps s,
    fun n hn => ?unassigned⟩⟩
  case status =>
    rw [← packStatus_fields]
    exact exec_regRd_regno .status s
  case unconfigured =>
    exact (exec_regRd_regno .bmod s).trans
      (by rw [State.readReg, bmod_of_spb_eq_zero hspb]; rfl)
  case configured =>
    exact (exec_regRd_regno .bmod s).trans
      (by rw [State.readReg, zext32_bmod_of_spb_ne_zero hspb]; rfl)
  case unassigned =>
    exact exec_of_effect_error (c := .errRegno) (f := 0#4) (by decide)
      (by simp only [effect, regOf_eq_none n hn])

end Sys2Proof.Machine

/-! SUPPORT. Proofs for the statements about status and exceptions (spec/60_exceptions.md). A step
that takes a command word ends with the status update and the response of that word's effect
(`step_command`). What is left to show is that an effect that raises writes nothing, and that of all
words only CLR_ERR's touches STATUS before its end. -/

namespace Sys2Proof.Machine

open Sys2Proof.Safety

/-! ## Effects that raise -/

/-- R301: OK is the code with number 0. -/
theorem StatusCode.bits_eq_zero_iff (c : StatusCode) : c.bits = 0x00#8 ↔ c = .ok :=
  ⟨StatusCode.bits_injective c .ok, fun h => h ▸ rfl⟩

/-- R111, R301: a response with another number than 0 is that of an effect that raises. -/
theorem Effect.code_ne_ok_of_response {e : Effect} (h : e.response.code ≠ 0x00#8) : e.code ≠ .ok :=
  fun hok => h ((StatusCode.bits_eq_zero_iff e.code).2 hok)

/-- R302: a command completes with OK, or it writes nothing before its end. -/
theorem effect_code_eq_ok_or_update_eq_keep (i : Instr) (s : State) :
    (effect i s).code = .ok ∨ (effect i s).update = .keep := by
  cases i <;> simp only [effect]
  case cfgSpb | fcfEnc | build | padCalc =>
    split
    · exact .inr rfl
    · exact .inl rfl
  case regRd =>
    split
    · exact .inl rfl
    · exact .inr rfl
  all_goals exact .inl rfl

theorem wordEffect_update_of_code_ne_ok {cmd : Word} {s : State}
    (h : (wordEffect cmd s).code ≠ .ok) : (wordEffect cmd s).update = .keep := by
  unfold wordEffect at h ⊢
  cases hdec : decode cmd with
  | ok i =>
    rw [hdec] at h
    exact (effect_code_eq_ok_or_update_eq_keep i s).resolve_left h
  | error e => rfl

/-! ## STATUS before the end of a command -/

/-- R33: only CLR_ERR writes STATUS before its own status update. -/
theorem Update.apply_status (u : Update) (s : State) (op : Opcode) (h : op ∈ u.writers)
    (hop : op ≠ .clrErr) : (u.apply s).status = s.status := by
  cases u with
  | clearSticky => exact absurd (List.mem_singleton.1 h) hop
  | dinByte addr8 data8 => exact setMem_status ..
  | _ => rfl

/-- CLR_ERR has no operand, so one word alone is CLR_ERR (R103, R253). -/
theorem eq_clrErr_word_of_opcode {cmd : Word} {i : Instr} (h : decode cmd = .ok i)
    (hop : i.opcode = .clrErr) : cmd = 0x03000000#32 := by
  obtain ⟨op, -, -, rfl⟩ := decode_eq_ok cmd i h
  rw [opcode_operands] at hop
  subst hop
  exact (encodeOfDecodedWordIsTheWord cmd .clrErr h).symm

theorem wordEffect_clrErr (s : State) : wordEffect 0x03000000#32 s = .ok .clearSticky 0#32 := rfl

/-- REG_RD STATUS answers STATUS as it was, with its reserved bits 0 (R257). -/
theorem wordEffect_regRd_status (s : State) :
    wordEffect 0x50000000#32 s = .ok .keep ((s.status &&& 0x10FFF#17).setWidth 32) := by
  rw [← packStatus_fields]
  rfl

/-- R300: the STICKY that a word's status update starts from is the old one, and 0 for CLR_ERR. -/
theorem statusSticky_apply_wordEffect (cmd : Word) (s : State) :
    statusSticky ((wordEffect cmd s).update.apply s).status =
      if cmd = 0x03000000#32 then false else statusSticky s.status := by
  split
  next hclr =>
    rw [hclr, wordEffect_clrErr]
    exact statusSticky_packStatus ..
  next hclr =>
    unfold wordEffect
    cases hdec : decode cmd with
    | ok i =>
      have hop : i.opcode ≠ .clrErr := fun hop => hclr (eq_clrErr_word_of_opcode hdec hop)
      exact congrArg statusSticky (Update.apply_status _ s i.opcode (opcode_mem_writers i s) hop)
    | error e => rfl

/-- R300: STICKY after a command word. -/
theorem statusSticky_run_wordEffect (cmd : Word) (s : State) :
    statusSticky ((wordEffect cmd s).run s).status =
      ((if cmd = 0x03000000#32 then false else statusSticky s.status) ||
        decide ((wordEffect cmd s).code ≠ .ok)) := by
  rw [Effect.run, finish_status, statusSticky_statusAfter, statusSticky_apply_wordEffect]

/-! ## A step that takes a command word -/

/-- The state after a command word is fixed by the word's effect, and so is the response that the
step appends. -/
theorem eq_run_and_response_of_step_command {s t : State} {cmd : Word} {rest : List Input}
    {r : Response} (hin : s.inputs = .command cmd :: rest) (hstep : step s = .next t)
    (hresp : t.responses = s.responses ++ [r]) :
    t = (wordEffect cmd { s with inputs := rest }).run { s with inputs := rest } ∧
      r = (wordEffect cmd { s with inputs := rest }).response := by
  rw [step_command s cmd rest hin] at hstep
  cases hstep
  rw [Effect.run_responses] at hresp
  exact ⟨rfl, (List.singleton_inj.1 (List.append_cancel_left hresp)).symm⟩

/-! ## The statements -/

/-- Settles O7: the step's case without input. -/
theorem stepWithoutInputWaits : Obligations.StepWithoutInputWaits := by
  intro s hin
  simp only [step, hin]

/-- Settles O8: each kind of next input has its next state, and so has the step that waits. -/
theorem everyStepCompletes : Obligations.EveryStepCompletes := by
  intro s
  cases hin : s.inputs with
  | nil => exact ⟨s, stepWithoutInputWaits s hin⟩
  | cons i rest =>
    cases i with
    | command cmd => exact ⟨_, step_command s cmd rest hin⟩
    | reset => exact ⟨_, step_reset s rest (.inl hin)⟩
    | resetDuring cmd => exact ⟨_, step_reset s rest (.inr ⟨cmd, hin⟩)⟩

/-- Settles O9: the code, FIELD and data are those of the word's effect. -/
theorem everyCommandUpdatesStatusAndResponds :
    Obligations.EveryCommandUpdatesStatusAndResponds := by
  intro s cmd rest hin
  refine ⟨_, _, _, (wordEffect cmd { s with inputs := rest }).data, step_command s cmd rest hin,
    statusCode_statusAfter .., statusField_statusAfter .., packStatus_reserved ..,
    statusSticky_run_wordEffect cmd _, Effect.run_responses .., ?_⟩
  intro hread
  rw [hread, wordEffect_regRd_status]
  exact ⟨rfl, rfl⟩

/-- Settles O10: an effect that raises writes nothing, so only its end is left in the state. -/
theorem errorsLeaveNoTraceButStatus : Obligations.ErrorsLeaveNoTraceButStatus := by
  intro s t cmd rest r hin hstep hresp hcode
  obtain ⟨rfl, rfl⟩ := eq_run_and_response_of_step_command hin hstep hresp
  have hne := Effect.code_ne_ok_of_response hcode
  refine ⟨if_neg hne, ?_⟩
  rw [Effect.run, wordEffect_update_of_code_ne_ok hne]
  rfl

/-- Settles O11: the status update keeps or sets STICKY, except that CLR_ERR clears it first and
completes, and reset gives STATUS the value 0. -/
theorem stickyIsSetByErrorsAndClearedByClrErrOrReset :
    Obligations.StickyIsSetByErrorsAndClearedByClrErrOrReset := by
  refine ⟨?command, ?reset⟩
  case command =>
    intro s t cmd rest r hin hstep hresp
    obtain ⟨rfl, rfl⟩ := eq_run_and_response_of_step_command hin hstep hresp
    have hsticky := statusSticky_run_wordEffect cmd { s with inputs := rest }
    refine ⟨fun hcode => ?_, fun hold hclr => ?_, fun hclr => ?_, statusCode_statusAfter ..⟩
    · have hne := Effect.code_ne_ok_of_response hcode
      exact hsticky.trans (by rw [decide_eq_true hne, Bool.or_true])
    · exact hsticky.trans (by rw [if_neg hclr, statusSticky, hold, Bool.true_or])
    · subst hclr
      exact hsticky
  case reset =>
    intro s t rest hin hstep
    rw [step_reset s rest hin] at hstep
    cases hstep
    rw [takeReset_status]
    rfl

end Sys2Proof.Machine

/-! SUPPORT. Proofs for the statements about reset (spec/70_reset_and_hazards.md R400 to R402). Both
forms of reset are the step `takeReset` (`step_reset`), so each statement is a fact about
`takeReset`. -/

namespace Sys2Proof.Machine

open Sys2Proof.Safety

/-! ## The registers that reset does not store -/

/-- R39: reset leaves SPB not configured, so BMOD reads 0. -/
theorem takeReset_readReg_bmod (s : State) : (takeReset s).readReg .bmod = 0#32 := by
  rw [State.readReg, bmod_of_spb_eq_zero (takeReset_spb s)]
  rfl

/-- R40: the parameters of the build, packed into CAPS, which no state changes. -/
theorem readReg_caps (s : State) : s.readReg .caps = 0x10051480#32 := rfl

/-! ## The statements -/

/-- Settles O14: the eight stored registers as `takeReset` writes them, then BMOD and CAPS. -/
theorem resetGivesEveryRegisterItsResetValue :
    Obligations.ResetGivesEveryRegisterItsResetValue := by
  intro s rest hin
  refine ⟨_, step_reset s rest (.inl hin), takeReset_status _, takeReset_crc _, takeReset_fcf _,
    takeReset_fdec _, takeReset_spb _, takeReset_sfd _, takeReset_flen _, takeReset_padn _, ?bmod,
    ?caps⟩
  case bmod => exact takeReset_readReg_bmod _
  case caps => exact readReg_caps _

/-- Settles O15: both forms of reset take the same step, which does not look at the command. -/
theorem resetDuringACommandDiscardsIt : Obligations.ResetDuringACommandDiscardsIt := by
  intro s cmd rest hin
  have hduring : step s = .next (takeReset { s with inputs := rest }) :=
    step_reset s rest (.inr ⟨cmd, hin⟩)
  have halone : step { s with inputs := .reset :: rest } =
      .next (takeReset { s with inputs := rest }) :=
    step_reset { s with inputs := .reset :: rest } rest (.inl rfl)
  exact ⟨hduring.trans halone.symm, _, hduring, takeReset_responses _, takeReset_inputs _⟩

/-- Settles O16: reset lists no byte in either memory and counts the draw. -/
theorem resetDrawsBothMemoriesAnew : Obligations.ResetDrawsBothMemoriesAnew := by
  intro s rest hin
  exact ⟨_, step_reset s rest (.inl hin), fun sp a =>
    takeReset_readByte sp { s with inputs := rest } a⟩

/-- Settles O19: the invariant holds after every reset, and it does not speak of the draw. -/
theorem resetStateIsLegal : Obligations.ResetStateIsLegal := takeReset_legalState State.reset

end Sys2Proof.Machine
